-- ==== Sys2Proof/Word.lean ====
section
/-! DEFINITION. The widths of the block's values (00_scope.md R6, R7, R8): bit vectors, bit 0 the least significant. -/

namespace Sys2Proof

/-- One byte of a 16-byte string (R8, R20). -/
abbrev Byte := BitVec 8

/-- One operand of the carry-less multiplier, `W_OP` = 64 bits (R6). -/
abbrev Half := BitVec 64

/-- A lane `OPA`, `OPB`, `RES`, and a field element `KEY`, `ACC`: 128 bits (R6, R7, R53). -/
abbrev Lane := BitVec 128

/-- The command word `CW`, 32 bits (R7, R32). -/
abbrev CommandWord := BitVec 32

end Sys2Proof
end

