-- ==== Sys2Proof/Config.lean ====
section
/-! DEFINITION. What is fixed for command set version 1 (00_scope.md R6). Nothing here is open: "The block never has an
undefined result" (60_exceptions.md R90), so there is no free value. The two open parameters `N_INST` and `LAT(op)` are read by
no rule (R7) and have no counterpart here (logs 9 and 10). -/

namespace Sys2Proof.Config

/-- `CHUNK`: the size in bytes of one absorbed block, and of a tag (`TAG_LEN`) and of the key (R6). -/
def chunkBytes : Nat := 16

/-- `RC`, the reduction constant x^63 + x^62 + x^57 (R6, R58). TESTED, log 11: the spec takes the value from general knowledge and
records that it reproduces the source's Vector 4. -/
def reductionConstant : Half := 0xC200000000000000#64

/-- `POLY` = x^128 + x^127 + x^126 + x^121 + 1 as a 129-bit number (R6, R8, R53). -/
def poly : Nat := 0x1C2000000000000000000000000000001

/-- `XINV`, the inverse of x^128 modulo `POLY` (R60). -/
def xInv : Nat := 0x92040000000000000000000000000001

/-- `E` = x^128 mod `POLY`, the identity of `gfmul` (R61). -/
def identityElement : Lane := 0xC2000000000000000000000000000001#128

end Sys2Proof.Config
end

