-- ==== Sys2Proof/Syntax.lean ====
section
/-! DEFINITION. The request frame (30_encoding.md R30) and the six commands (R33, opcode_table.json), each with the operands
rule R35 gives it. -/

namespace Sys2Proof

/-- A request frame: command word and two operand lanes, presented together (R30). -/
structure Request where
  /-- `CW`: opcode and length (R32). -/
  cw : CommandWord
  /-- `OPA`: operand lane A. -/
  opa : Lane
  /-- `OPB`: operand lane B. -/
  opb : Lane
deriving DecidableEq, Repr

/-- The commands, one constructor per row of opcode_table.json, with the operands of R35. -/
inductive Instr where
  /-- `CLMUL a, b`: carry-less multiply (R48); `a` = `OPA[63:0]`, `b` = `OPB[63:0]`. -/
  | clmul (a b : Half)
  /-- `PV.KEY k`: load the hash key, clear the accumulator (R62); `k` = `OPA`. -/
  | pvKey (k : Lane)
  /-- `PV.RESET`: clear the accumulator (R63). -/
  | pvReset
  /-- `PV.ABSORB n, d`: absorb one chunk of `n` bytes (R65); `n` = `LEN`, `d` = `OPA`, of which bytes 0 to n-1 are used. -/
  | pvAbsorb (n : BitVec 5) (d : Lane)
  /-- `PV.READ`: return the accumulator (R66). -/
  | pvRead
  /-- `TAG.EQ x, y`: compare two 16-byte tags (R73); `x` = `OPA`, `y` = `OPB`. -/
  | tagEq (x y : Lane)
deriving DecidableEq, Repr

end Sys2Proof
end

