-- ==== Sys2Proof/Decode.lean ====
section
/-! DEFINITION. Decoding a request frame (30_encoding.md R32 to R38), total on all 2^288 frames and rejecting by name; then the
encoder (R33, R35, R43); then the opcode table as rows; then the numbering of a frame as one number. -/

namespace Sys2Proof

/-! ## Fields of the command word (R32) -/

/-- `OP` = `CW[3:0]`. -/
def CommandWord.op (cw : CommandWord) : BitVec 4 := cw.extractLsb' 0 4

/-- `LEN` = `CW[8:4]`, unsigned, not scaled (R34). -/
def CommandWord.len (cw : CommandWord) : BitVec 5 := cw.extractLsb' 4 5

/-- `RSV` = `CW[31:9]`. -/
def CommandWord.rsv (cw : CommandWord) : BitVec 23 := cw.extractLsb' 9 23

/-- The word with these fields and `RSV` = 0: `{RSV, LEN, OP}`. -/
def CommandWord.ofFields (len : BitVec 5) (op : BitVec 4) : CommandWord := (0#23 ++ len) ++ op

/-- `v[63:0]`. -/
def Lane.lo (v : Lane) : Half := v.extractLsb' 0 64

/-- `v[127:64]`. -/
def Lane.hi (v : Lane) : Half := v.extractLsb' 64 64

/-! ## Opcodes (R33) -/

/-- The six assigned opcodes. -/
inductive Opcode where
  | clmul | pvKey | pvReset | pvAbsorb | pvRead | tagEq
deriving DecidableEq, Repr

/-- The opcode map of R33. -/
def Opcode.bits : Opcode → BitVec 4
  | .clmul => 0x1#4
  | .pvKey => 0x2#4
  | .pvReset => 0x3#4
  | .pvAbsorb => 0x4#4
  | .pvRead => 0x5#4
  | .tagEq => 0x6#4

/-- R33 read the other way; the ten values 0x0 and 0x7 to 0xF are reserved. -/
def Opcode.ofBits (op : BitVec 4) : Option Opcode :=
  match op.toNat with
  | 1 => some .clmul
  | 2 => some .pvKey
  | 3 => some .pvReset
  | 4 => some .pvAbsorb
  | 5 => some .pvRead
  | 6 => some .tagEq
  | _ => none

/-- The command an opcode selects, with its operands taken from the frame (R35). -/
def Opcode.instr (op : Opcode) (f : Request) : Instr :=
  match op with
  | .clmul => .clmul (Lane.lo f.opa) (Lane.lo f.opb)
  | .pvKey => .pvKey f.opa
  | .pvReset => .pvReset
  | .pvAbsorb => .pvAbsorb (CommandWord.len f.cw) f.opa
  | .pvRead => .pvRead
  | .tagEq => .tagEq f.opa f.opb

/-! ## Decoding (R36, R37) -/

/-- Why a command word is reserved (R36). All three are `ERR_ILLEGAL` (R92). -/
inductive DecodeError where
  /-- `CW[31:9]` is not 0. -/
  | reservedBits
  /-- `OP` is 0x0 or 0x7 to 0xF. -/
  | reservedOpcode
  /-- `LEN` is not 0 in a command other than `PV.ABSORB`. -/
  | lengthNotZero
deriving DecidableEq, Repr

/-- The first three tests of R37, in its order. Its fourth and fifth tests, which depend on the command and on the state, stand in
the meanings of `PV.ABSORB` and `PV.READ`, where R65 and R66 also state them (log 5). -/
def decode (f : Request) : Except DecodeError Instr :=
  if CommandWord.rsv f.cw ≠ 0#23 then .error .reservedBits
  else
    match Opcode.ofBits (CommandWord.op f.cw) with
    | none => .error .reservedOpcode
    | some op =>
      if op ≠ .pvAbsorb ∧ CommandWord.len f.cw ≠ 0#5 then .error .lengthNotZero
      else .ok (op.instr f)

/-! ## Encoding (R32, R33, R35, R43) -/

/-- The opcode of a command. -/
def Instr.opcode : Instr → Opcode
  | .clmul _ _ => .clmul
  | .pvKey _ => .pvKey
  | .pvReset => .pvReset
  | .pvAbsorb _ _ => .pvAbsorb
  | .pvRead => .pvRead
  | .tagEq _ _ => .tagEq

/-- The `LEN` field of a command: a length for `PV.ABSORB`, 0 for every other (R34). -/
def Instr.lenField : Instr → BitVec 5
  | .pvAbsorb n _ => n
  | .clmul _ _ => 0#5
  | .pvKey _ => 0#5
  | .pvReset => 0#5
  | .pvRead => 0#5
  | .tagEq _ _ => 0#5

/-- `OPA` of a command; bits the command ignores are written as zeros (R43, log 12). -/
def Instr.laneA : Instr → Lane
  | .clmul a _ => a.setWidth 128
  | .pvKey k => k
  | .pvReset => 0#128
  | .pvAbsorb _ d => d
  | .pvRead => 0#128
  | .tagEq x _ => x

/-- `OPB` of a command; bits the command ignores are written as zeros (R43, log 12). -/
def Instr.laneB : Instr → Lane
  | .clmul _ b => b.setWidth 128
  | .pvKey _ => 0#128
  | .pvReset => 0#128
  | .pvAbsorb _ _ => 0#128
  | .pvRead => 0#128
  | .tagEq _ y => y

/-- The request frame of a command. -/
def encode (i : Instr) : Request where
  cw := CommandWord.ofFields i.lenField i.opcode.bits
  opa := i.laneA
  opb := i.laneB

/-! ## The opcode table as rows (opcode_table.json) -/

/-- One row of opcode_table.json: the words `w` with `w &&& mask = pattern`. -/
structure OpcodeRow where
  /-- The command the row names. -/
  op : Opcode
  /-- The row's "match". -/
  pattern : CommandWord
  /-- The row's "mask". -/
  mask : CommandWord
deriving DecidableEq, Repr

/-- The six rows, letter for letter. -/
def opcodeTable : List OpcodeRow :=
  [ ⟨.clmul, 0x00000001#32, 0xFFFFFFFF#32⟩,
    ⟨.pvKey, 0x00000002#32, 0xFFFFFFFF#32⟩,
    ⟨.pvReset, 0x00000003#32, 0xFFFFFFFF#32⟩,
    ⟨.pvAbsorb, 0x00000004#32, 0xFFFFFE0F#32⟩,
    ⟨.pvRead, 0x00000005#32, 0xFFFFFFFF#32⟩,
    ⟨.tagEq, 0x00000006#32, 0xFFFFFFFF#32⟩ ]

/-- The row covers the word. -/
def OpcodeRow.covers (r : OpcodeRow) (cw : CommandWord) : Bool := decide (cw &&& r.mask = r.pattern)

/-! ## A frame as one number

DESIGN CHOICE, log 3: the spec gives the three fields of a frame and no order of bits among them. The model numbers them `CW` first,
then `OPA`, then `OPB`. Only the two interface functions `decodeTableWord` and `Machine.State.withFetchWord` use it. -/

/-- The length of a request frame in bits (R30). -/
def frameBits : Nat := 288

/-- The frame whose bits are `w`: `CW` = bits 31..0, `OPA` = bits 159..32, `OPB` = bits 287..160. -/
def Request.ofNat (w : Nat) : Request where
  cw := BitVec.ofNat 32 w
  opa := BitVec.ofNat 128 (w >>> 32)
  opb := BitVec.ofNat 128 (w >>> 160)

/-- The bits of a frame as one number, the inverse of `Request.ofNat` below 2^288. -/
def Request.toNat (f : Request) : Nat := ((f.opb ++ f.opa) ++ f.cw).toNat

/-- The first `nbits` bits of `w`, every bit above them 0, as a frame. -/
def tableFrame (nbits w : Nat) : Request := Request.ofNat (w % 2 ^ nbits)

/-- The command the decoder reads from the frame whose first `nbits` bits are those of `w`. -/
def decodeTableWord (nbits w : Nat) : Option Instr :=
  match decode (tableFrame nbits w) with
  | .ok i => some i
  | .error _ => none

end Sys2Proof
end

