-- ==== Sys2Proof/Machine/Arith.lean ====
section
/-! DEFINITION. The arithmetic of the block: the carry-less product (40_clmul.md R45, R46), the field multiplication step by step
(41_polyval.md R55 to R59), and the polynomials it stands for (R60). -/

namespace Sys2Proof.Machine

/-! ## The carry-less product -/

/-- The loop of R45 after its first `n` iterations. -/
def clmulUpTo (a b : Half) : Nat → Lane
  | 0 => 0#128
  | i + 1 =>
    if b.getLsbD i then clmulUpTo a b i ^^^ (a.setWidth 128 <<< i)
    else clmulUpTo a b i

/-- `clmul64(a, b)` (R45). -/
def clmul64 (a b : Half) : Lane := clmulUpTo a b 64

/-- One iteration of R46 on the 128-bit register `{hi, lo}`: add `a` at the top under the mask made of `lo[0]`, then shift the whole
register right by one. -/
def serialStep (a : Half) (r : Lane) : Lane :=
  let m : Half := if r.getLsbD 0 then BitVec.allOnes 64 else 0#64
  ((Lane.hi r ^^^ (a &&& m)) ++ Lane.lo r) >>> 1

/-- The register of R46 after `n` iterations, from `r`. -/
def serialIterate (a : Half) : Nat → Lane → Lane
  | 0, r => r
  | n + 1, r => serialIterate a n (serialStep a r)

/-- `clmul64_serial(a, b)` (R46): the register starts as `{0, b}` and runs 64 iterations. -/
def clmul64Serial (a b : Half) : Lane := serialIterate a 64 (0#64 ++ b)

/-! ## The field multiplication -/

/-- The four partial products of R55. -/
structure Partials where
  /-- low x low -/
  p0 : Lane
  /-- low x high -/
  p1 : Lane
  /-- high x low -/
  p2 : Lane
  /-- high x high -/
  p3 : Lane
deriving DecidableEq, Repr

/-- The partial products (R55). -/
def partials (a k : Lane) : Partials where
  p0 := clmul64 (Lane.lo a) (Lane.lo k)
  p1 := clmul64 (Lane.lo a) (Lane.hi k)
  p2 := clmul64 (Lane.hi a) (Lane.lo k)
  p3 := clmul64 (Lane.hi a) (Lane.hi k)

/-- `m`: the sum of the cross terms (R56). -/
def Partials.middle (p : Partials) : Lane := p.p1 ^^^ p.p2

/-- `z_lo`: the low 128 bits of the product (R56). -/
def Partials.zLo (p : Partials) : Lane := p.p0 ^^^ (Lane.lo p.middle ++ 0#64)

/-- `z_hi`: the high 128 bits of the product (R56). -/
def Partials.zHi (p : Partials) : Lane := p.p3 ^^^ (0#64 ++ Lane.hi p.middle)

/-- `Z` = `{z_hi, z_lo}`, the 256-bit intermediate (R56). -/
def product256 (a k : Lane) : BitVec 256 := (partials a k).zHi ++ (partials a k).zLo

/-- `swap64(v)` = `{v[63:0], v[127:64]}` (R57). -/
def swap64 (v : Lane) : Lane := Lane.lo v ++ Lane.hi v

/-- One fold round, `clmul64(t[63:0], RC) ^ swap64(t)` (R9, R59); the constant is an argument so that R58 can speak of others. -/
def foldRoundWith (rc : Half) (t : Lane) : Lane := clmul64 (Lane.lo t) rc ^^^ swap64 t

/-- One fold round with the block's `RC` (R58, R59). -/
def foldRound (t : Lane) : Lane := foldRoundWith Config.reductionConstant t

/-- `gfmul(a, k)` (R59): `z_hi` added to two fold rounds of `z_lo`. -/
def gfmul (a k : Lane) : Lane := (partials a k).zHi ^^^ foldRound (foldRound (partials a k).zLo)

/-- `K` multiplied by itself `j` times under `gfmul` (R68), starting from the identity `E` (R61). R68 speaks of j >= 1;
DESIGN CHOICE, log 15: j = 0 gives `E`, which no value of R68 uses. -/
def gfpow (k : Lane) : Nat → Lane
  | 0 => Config.identityElement
  | j + 1 => gfmul (gfpow k j) k

/-! ## Polynomials over GF(2), of unbounded width, as numbers (R60): bit i is the coefficient of x^i (R21) -/

/-- The exclusive or of `u << i` over the set bits i < `n` of `v`. -/
def polymulUpTo (u v : Nat) : Nat → Nat
  | 0 => 0
  | i + 1 => if v.testBit i then polymulUpTo u v i ^^^ (u <<< i) else polymulUpTo u v i

/-- `polymul(u, v)` (R60); a number has no set bit above `log2`. -/
def polymul (u v : Nat) : Nat := polymulUpTo u v (v.log2 + 1)

/-- The loop of `polymod` (R60) over the bit positions 128+n-1 down to 128. -/
def polymodDown : Nat → Nat → Nat
  | 0, z => z
  | n + 1, z => polymodDown n (if z.testBit (128 + n) then z ^^^ (Config.poly <<< n) else z)

/-- `polymod(z)` (R60): the remainder modulo `POLY`, 128 bits. -/
def polymod (z : Nat) : Lane := BitVec.ofNat 128 (polymodDown (z.log2 + 1 - 128) z)

/-! ## What a sequence of absorbs computes (R68) -/

/-- `ACC_i = gfmul(ACC_(i-1) ^ X_i, K)` over the padded chunks, from an accumulator `acc`. -/
def absorbChunks (k acc : Lane) (chunks : List Lane) : Lane :=
  chunks.foldl (fun a x => gfmul (a ^^^ x) k) acc

/-- `X_1 * K^n ^ X_2 * K^(n-1) ^ ... ^ X_n * K` under `gfmul` (R68). -/
def polynomialAt (k : Lane) : List Lane → Lane
  | [] => 0#128
  | x :: xs => gfmul x (gfpow k (xs.length + 1)) ^^^ polynomialAt k xs

end Sys2Proof.Machine
end

