-- ==== Sys2Proof/Machine/State.lean ====
section
/-! DEFINITION. The state of one instance of the block (10_state.md R10): `KEY`, `ACC`, `KV`; the response frame (30_encoding.md
R31) with its status (60_exceptions.md R91); and the two sides of the port. -/

namespace Sys2Proof.Machine

/-- The three errors (R91). -/
inductive ErrorCode where
  /-- `ERR_ILLEGAL`: reserved command word (R92). -/
  | errIllegal
  /-- `ERR_LEN`: `PV.ABSORB` with a length above 16 (R93). -/
  | errLen
  /-- `ERR_NOKEY`: accumulator command before any key was loaded (R94). -/
  | errNoKey
deriving DecidableEq, Repr

/-- The status of a response, four values (R91; the codes 0x4 to 0xF are never produced). -/
inductive Status where
  /-- `OK`: the command was executed. -/
  | ok
  /-- The command ended in an error. -/
  | error (e : ErrorCode)
deriving DecidableEq, Repr

/-- A response frame: `ST` and `RES` (R31). -/
structure Response where
  /-- `ST`; its 4-bit code is `Status.code`. -/
  st : Status
  /-- `RES`, the result lane (R41). -/
  res : Lane
deriving DecidableEq, Repr

/-- What the outside can do to the block. -/
inductive HostInput where
  /-- The host issues a request frame (R30). -/
  | request (f : Request)
  /-- The hardware reset of R105, applied between two commands (`none`), or while the command of a frame is in progress, which is
  then abandoned without a response (`some f`; U11, log 7). -/
  | hardReset (inProgress : Option Request)
deriving DecidableEq, Repr

/-- The whole state: the three pieces of architectural state of R10, and the port. -/
structure State where
  /-- `KEY`, the universal-hash key (R11). -/
  key : Lane
  /-- `ACC`, the running accumulator (R12). -/
  acc : Lane
  /-- `KV`, key valid (R13). -/
  kv : Bool
  /-- The model's own, no architectural state (log 1): what the host does next, in the order of issue (R15, R26). -/
  inputs : List HostInput
  /-- The model's own, no architectural state (log 1): the response frames returned so far, oldest first. No command reads it. -/
  responses : List Response
deriving DecidableEq, Repr

/-- Reasons to stop with a fault. There is none: the block answers every request (R31, R90), so nobody raises one, which is safe. -/
inductive Fault : Type
deriving DecidableEq, Repr

/-- Reasons to refuse an instruction. -/
inductive Refusal where
  /-- Raised only by an arm of `exec` whose instruction has no meaning yet; safe, since the run stops. No arm raises it: all six
  commands have their meaning. -/
  | notModelled (mnemonic : String)
deriving DecidableEq, Repr

/-- The block right after its hardware reset (R19, R105), with nothing issued and nothing answered. -/
def State.reset : State where
  key := 0#128
  acc := 0#128
  kv := false
  inputs := []
  responses := []

/-- How one step ends. -/
abbrev Out := Host.Outcome State Fault Refusal

end Sys2Proof.Machine
end

