-- ==== Sys2Proof/Machine/Ops.lean ====
section
/-! DEFINITION. The named operations over the state: writing a register, answering a request, ending a command in an error (the
block's only exception, 60_exceptions.md R96; there is no return from it, R97), the key check (R94), the hardware reset
(70_reset_and_hazards.md R105), and taking the host's next input. -/

namespace Sys2Proof.Machine

/-- `KEY <- v`. -/
def State.setKey (s : State) (v : Lane) : State := { s with key := v }

/-- `ACC <- v`. -/
def State.setAcc (s : State) (v : Lane) : State := { s with acc := v }

/-- `KV <- v`. -/
def State.setKv (s : State) (v : Bool) : State := { s with kv := v }

/-- The host's next inputs become `is`. -/
def State.setInputs (s : State) (is : List HostInput) : State := { s with inputs := is }

/-- The block returns the response frame `{st, res}` (R31). -/
def State.respond (s : State) (st : Status) (res : Lane) : State :=
  { s with responses := s.responses ++ [⟨st, res⟩] }

/-- `RES <- res; ST <- OK`: the command was executed (R91). -/
def succeed (res : Lane) (s : State) : Out := .next (s.respond .ok res)

/-- `raise e` (R8, R96): the command ends at once, `ST` is the code of `e`, `RES` is 0, and no state changes. The block goes on (log 6). -/
def raise (e : ErrorCode) (s : State) : Out := .next (s.respond (.error e) 0#128)

/-- `if KV == 0 then raise ERR_NOKEY`, else go on (R94). -/
def requireKey (s : State) (goOn : Out) : Out := if s.kv then goOn else raise .errNoKey s

/-- The error a reserved command word ends in: `ERR_ILLEGAL`, whichever test of R36 fired (R92). -/
def decodeErrorCode : DecodeError → ErrorCode
  | .reservedBits => .errIllegal
  | .reservedOpcode => .errIllegal
  | .lengthNotZero => .errIllegal

/-- The hardware reset: the state takes the values of R19; a command in progress is abandoned without a response (R105), so the
responses already returned stand. -/
def State.hardReset (s : State) : State :=
  { s with key := State.reset.key, acc := State.reset.acc, kv := State.reset.kv }

end Sys2Proof.Machine
end

