-- ==== Sys2Proof/Machine/Clmul.lean ====
section
/-! DEFINITION. The meaning of `CLMUL` (40_clmul.md R48). -/

namespace Sys2Proof.Machine

/-- R48: `RES <- clmul64(a, b)`; state neither read nor written. -/
def execClmul (a b : Half) (s : State) : Out := succeed (clmul64 a b) s

end Sys2Proof.Machine
end

