-- ==== Sys2Proof/Machine/Operands.lean ====
section
/-! DEFINITION. Operands: the little-endian map between 16 bytes and a lane (20_memory.md R20, 00_scope.md R8), the mask of a short
chunk (41_polyval.md R64), and the operands of a frame (30_encoding.md R35). -/

namespace Sys2Proof.Machine

/-- `le128`: the value whose bits 8i+7..8i are byte i; a string shorter than 16 bytes is padded with zero bytes (R8, R20, R39).
DESIGN CHOICE, log 14: of a string longer than 16 bytes, of which the spec says nothing, the bytes from the 17th on are dropped. -/
def le128 : List Byte → Lane
  | [] => 0#128
  | b :: bs => (le128 bs <<< 8) ||| b.setWidth 128

/-- Byte i of a lane, `v[8i+7:8i]` (R20, for i = 0 to 15). DESIGN CHOICE, log 15: zero for a greater i. -/
def byteAt (v : Lane) (i : Nat) : Byte := v.extractLsb' (8 * i) 8

/-- `bytes16`: the 16 bytes of a lane, the first in memory order first (R8, R20). -/
def bytes16 (v : Lane) : List Byte := (List.range Config.chunkBytes).map (byteAt v)

/-- `mask_bytes(n)` = `(1 << 8n) - 1` in 129-bit arithmetic, cut to 128 bits (R64, for n = 0 to 16).
DESIGN CHOICE, log 15: above 16, where no command uses it, it is all ones. -/
def maskBytes (n : Nat) : Lane := ((1#129 <<< (8 * n)) - 1#129).setWidth 128

/-- The chunk of `n` bytes padded with zero bytes to 16: `d & mask_bytes(n)` (R64). -/
def paddedChunk (n : BitVec 5) (d : Lane) : Lane := d &&& maskBytes n.toNat

/-- The two frames carry the same operands for a command of this opcode and length: they agree on the bits of the lanes that R35 lists,
and the bits R35 does not list are not compared. -/
def sameOperands (op : Opcode) (n : BitVec 5) (f g : Request) : Prop :=
  match op with
  | .clmul => Lane.lo f.opa = Lane.lo g.opa ∧ Lane.lo f.opb = Lane.lo g.opb
  | .pvKey => f.opa = g.opa
  | .pvReset => True
  | .pvAbsorb => ∀ i < n.toNat, byteAt f.opa i = byteAt g.opa i
  | .pvRead => True
  | .tagEq => f.opa = g.opa ∧ f.opb = g.opb

end Sys2Proof.Machine
end

