-- ==== Sys2Proof/Machine/Polyval.lean ====
section
/-! DEFINITION. The meanings of the four accumulator commands (41_polyval.md R62, R63, R65, R66). -/

namespace Sys2Proof.Machine

/-- R62: `KEY <- k; ACC <- 0; KV <- 1; RES <- 0`. -/
def execPvKey (k : Lane) (s : State) : Out :=
  succeed 0#128 (((s.setKey k).setAcc 0#128).setKv true)

/-- R63: `ACC <- 0; RES <- 0`; needs no key. -/
def execPvReset (s : State) : Out := succeed 0#128 (s.setAcc 0#128)

/-- `ACC <- gfmul(ACC ^ blk, KEY)` with `blk = d & mask_bytes(n)` (R65). -/
def State.absorb (s : State) (n : BitVec 5) (d : Lane) : State :=
  s.setAcc (gfmul (s.acc ^^^ paddedChunk n d) s.key)

/-- R65, its tests in its order: `ERR_LEN` above 16, then `ERR_NOKEY`, then nothing for length 0, else one absorb. -/
def execPvAbsorb (n : BitVec 5) (d : Lane) (s : State) : Out :=
  if n.toNat > 16 then raise .errLen s
  else requireKey s (if n = 0#5 then succeed 0#128 s else succeed 0#128 (s.absorb n d))

/-- R66: `RES <- ACC`; nothing written. -/
def execPvRead (s : State) : Out := requireKey s (succeed s.acc s)

end Sys2Proof.Machine
end

