-- ==== Sys2Proof/Machine/Flags.lean ====
section
/-! DEFINITION. The one-bit results and codes: the status code of a response (60_exceptions.md R91), `orreduce` (00_scope.md R8) and
the equality bit of `TAG.EQ` (42_tagcmp.md R73). The block has no condition codes (10_state.md R16); its one flag is `KV`. -/

namespace Sys2Proof.Machine

/-- The 4-bit code of an error (R91). -/
def ErrorCode.code : ErrorCode → BitVec 4
  | .errIllegal => 0x1#4
  | .errLen => 0x2#4
  | .errNoKey => 0x3#4

/-- The 4-bit `ST` field (R91). -/
def Status.code : Status → BitVec 4
  | .ok => 0x0#4
  | .error e => e.code

/-- `ST` read back; the codes 0x4 to 0xF are never produced (R91, U9). -/
def Status.ofCode (c : BitVec 4) : Option Status :=
  match c.toNat with
  | 0 => some .ok
  | 1 => some (.error .errIllegal)
  | 2 => some (.error .errLen)
  | 3 => some (.error .errNoKey)
  | _ => none

/-- The or of the low `n` bits of `v`. -/
def orReduceUpTo (v : Lane) : Nat → Bool
  | 0 => false
  | i + 1 => orReduceUpTo v i || v.getLsbD i

/-- `orreduce(v)`: the or of all bits, every one examined (R8, R74). -/
def orReduce (v : Lane) : Bool := orReduceUpTo v 128

/-- `eq = ~orreduce(OPA ^ OPB)`, one bit (R73). -/
def equalBit (x y : Lane) : BitVec 1 := BitVec.ofBool (!orReduce (x ^^^ y))

end Sys2Proof.Machine
end

