-- ==== Sys2Proof/Machine/TagCmp.lean ====
section
/-! DEFINITION. The meaning of `TAG.EQ` (42_tagcmp.md R73). -/

namespace Sys2Proof.Machine

/-- R73: `RES <- zext_128(eq)`; a mismatch is a result, not an error (R75, R98). -/
def execTagEq (x y : Lane) (s : State) : Out := succeed ((equalBit x y).setWidth 128) s

end Sys2Proof.Machine
end

