-- ==== Sys2Proof/Machine/Dispatch.lean ====
section
/-! DEFINITION. One arm per command of 30_encoding.md R33. -/

namespace Sys2Proof.Machine

def exec (i : Instr) (s : State) : Host.Outcome State Fault Refusal :=
  match i with
  | .clmul a b => Sys2Proof.Machine.execClmul a b s
  | .pvKey k => Sys2Proof.Machine.execPvKey k s
  | .pvReset => Sys2Proof.Machine.execPvReset s
  | .pvAbsorb n d => Sys2Proof.Machine.execPvAbsorb n d s
  | .pvRead => Sys2Proof.Machine.execPvRead s
  | .tagEq x y => Sys2Proof.Machine.execTagEq x y s

end Sys2Proof.Machine
end

