-- ==== Sys2Proof/Machine/Step.lean ====
section
/-! DEFINITION. One step: the block takes what the host does next and carries it out whole (20_memory.md R25, R26). -/

namespace Sys2Proof.Machine

/-- The response to one request frame and the state after it: decode, then execute, or end in the decoder's error (R37). -/
def runRequest (f : Request) (s : State) : Host.Outcome State Fault Refusal :=
  match decode f with
  | .ok i => exec i s
  | .error e => raise (decodeErrorCode e) s

/-- One step. A request is answered (R31), a hardware reset takes effect (R105); with nothing presented the block stays as it is
(log 2). -/
def step (s : State) : Host.Outcome State Fault Refusal :=
  match s.inputs with
  | [] => .next s
  | .request f :: rest => runRequest f (s.setInputs rest)
  | .hardReset _ :: rest => .next (s.setInputs rest).hardReset

/-- `s` with the frame of these bits as the host's very next request (log 4): the block fetches nothing (R15, R28), so this is how an
instruction comes to run. -/
def State.withFetchWord (s : State) (nbits w : Nat) : State :=
  s.setInputs (.request (tableFrame nbits w) :: s.inputs)

end Sys2Proof.Machine
end

