-- ==== Sys2Proof/Machine/HostSequences.lean ====
section
/-! DEFINITION. The command sequences the host's software issues (44_host_sequences.md). They bind the host, not the block; the block
checks none of them. What the software does with the results (ciphers, nonce, buffers) is out of scope (00_scope.md R4). -/

namespace Sys2Proof.Machine

/-- The host issues these commands, in order, before anything else it does (R15, R26). -/
def State.issue (s : State) (is : List Instr) : State :=
  s.setInputs (is.map (fun i => .request (encode i)) ++ s.inputs)

/-- `s` with this request as the host's next act and `rest` after it. -/
def State.presenting (s : State) (f : Request) (rest : List HostInput) : State :=
  s.setInputs (.request f :: rest)

/-- The 16-byte piece of a byte string that starts at byte 16j, shorter at its end. -/
def piece (data : List Byte) (j : Nat) : List Byte := (data.drop (16 * j)).take 16

/-- `PV.ABSORBM`, the source's `absorb(data)` (R40, R80): a command for each whole 16-byte piece, then one for the rest if there
is one; no command for the empty string. -/
def pvAbsorbM (data : List Byte) : List Instr :=
  (List.range (data.length / 16)).map (fun j => .pvAbsorb 16#5 (le128 (piece data j)))
    ++ (if data.length % 16 = 0 then []
        else [.pvAbsorb (BitVec.ofNat 5 (data.length % 16)) (le128 (piece data (data.length / 16)))])

/-- The zero-padded chunks of a byte string, `ceil(n/16)` of them (R68, R80). -/
def paddedBlocks (data : List Byte) : List Lane :=
  (List.range ((data.length + 15) / 16)).map (fun j => le128 (piece data j))

/-- `PV.LENBLK abits, pbits` = `PV.ABSORB 16, {pbits, abits}` (R40, R84). -/
def pvLenBlk (abits pbits : BitVec 64) : Instr := .pvAbsorb 16#5 (pbits ++ abits)

/-- The bit length of a byte string as the 64-bit field of the trailer (R84). The field holds every length the source allows (R88);
beyond 2^61 bytes it wraps (log 13). -/
def bitLength (data : List Byte) : BitVec 64 := BitVec.ofNat 64 (8 * data.length)

/-- Session set-up: one `PV.KEY` with the 16-byte message-authentication key (R82). DESIGN CHOICE, log 14: a longer string is cut to
its first 16 bytes by `le128`. -/
def sivSetUp (authKey : List Byte) : List Instr := [.pvKey (le128 authKey)]

/-- The commands of one message of the SIV construction, in their order (R81). -/
def sivHash (aad plaintext : List Byte) : List Instr :=
  .pvReset :: (pvAbsorbM aad ++ pvAbsorbM plaintext ++ [pvLenBlk (bitLength aad) (bitLength plaintext), .pvRead])

/-- The padded chunks one message of the SIV construction absorbs (R81, R84). -/
def sivBlocks (aad plaintext : List Byte) : List Lane :=
  paddedBlocks aad ++ paddedBlocks plaintext ++ [bitLength plaintext ++ bitLength aad]

/-- The comparison both constructions end a decryption with (R83, R86), of two 16-byte tags (R78). DESIGN CHOICE, log 14: longer strings
are cut to their first 16 bytes by `le128`. -/
def tagCheck (expected claimed : List Byte) : List Instr := [.tagEq (le128 expected) (le128 claimed)]

/-- The boolean the host takes from the response of `TAG.EQ` (R83, R85). -/
def authenticated (r : Response) : Bool := r.res.getLsbD 0

/-- One `gfmul` through commands (R69). -/
def gfmulCommands (a k : Lane) : List Instr := [.pvKey k, .pvAbsorb 16#5 a, .pvRead]

end Sys2Proof.Machine
end

