-- ==== Sys2Proof/Machine/HostAead.lean ====
section
/-! DEFINITION. How the host's two constructions drive the block from end to end (44_host_sequences.md R81 to R87): which commands they
issue, in which order, what they make of the responses, and what they give back. The ciphers and the other MAC are external
collaborators (00_scope.md R4), so they are arguments here: nothing is assumed of them. -/

namespace Sys2Proof.Machine

/-- The host issues these commands one after the other and takes the last response, with the block as it then is. A last response that is
an error ends the host's work (R104; DESIGN CHOICE, log 16). -/
def perform (is : List Instr) (s : State) : Option (State × Response) :=
  match Host.Core.run Sys2Proof.core is.length (s.issue is) with
  | .next t => t.responses.getLast?.bind (fun r => if r.st = .ok then some (t, r) else none)
  | .fault _ => none
  | .refused _ => none

/-! ## Session set-up (R82) -/

/-- The counter block `0x00000000 ‖ nonce` with an index in its low 32 bits; the nonce as the little-endian value of its 12 bytes
(DEDUCED, log 17). -/
def derivationBlock (nonce : BitVec 96) (index : Nat) : Lane := nonce ++ BitVec.ofNat 32 index

/-- The 8-byte pieces of key material: the first 8 bytes of each cipher output, for key-length/8 + 2 indices (R82, C8). -/
def keyPieces (encryptBlock : Lane → Lane) (nonce : BitVec 96) (keyLength : Nat) : List Half :=
  (List.range (keyLength / 8 + 2)).map (fun i => Lane.lo (encryptBlock (derivationBlock nonce i)))

/-- The message-authentication key: the first two pieces, 16 bytes (R82). -/
def authKey (encryptBlock : Lane → Lane) (nonce : BitVec 96) : Lane :=
  Lane.lo (encryptBlock (derivationBlock nonce 1)) ++ Lane.lo (encryptBlock (derivationBlock nonce 0))

/-- `new(key, nonce)` at the block: one `PV.KEY` with the derived key, once per session (R82). -/
def sivNew (encryptBlock : Lane → Lane) (nonce : BitVec 96) : List Instr := sivSetUp (bytes16 (authKey encryptBlock nonce))

/-! ## The SIV construction (R81, R83) -/

/-- The masked accumulator: the nonce added into bytes 0 to 11 of `S`, then `S[127]` cleared (R81). That the
nonce's 12 bytes are its little-endian value is DEDUCED from R20 (log 17). -/
def sivMask (nonce : BitVec 96) (hash : Lane) : Lane := (hash ^^^ nonce.setWidth 128) &&& (BitVec.allOnes 128 >>> 1)

/-- The tag: the masked accumulator encrypted with the block cipher (R81, R83). -/
def sivTag (encryptBlock : Lane → Lane) (nonce : BitVec 96) (hash : Lane) : Lane := encryptBlock (sivMask nonce hash)

/-- What an encryption gives back, and the block after it. -/
structure Sealed where
  ciphertext : List Byte
  /-- The 16-byte tag that follows the ciphertext. -/
  tag : Lane
  block : State
deriving DecidableEq, Repr

/-- What a decryption gives back, and the block after it. -/
structure Opened where
  /-- The boolean the construction returns: `RES[0]` of `TAG.EQ` (R83, R86). -/
  authentic : Bool
  /-- The bytes that stand in the message part of the buffer afterwards; after a failed SIV decryption by log 18. -/
  message : List Byte
  block : State
deriving DecidableEq, Repr

/-- SIV encryption: the hash of R81 over the plaintext, its tag, then counter mode under the counter block derived from the tag.
`counterMode tag data` is that derivation and the exclusive or with the keystream, both outside the block (R4). -/
def sivEncrypt (encryptBlock : Lane → Lane) (counterMode : Lane → List Byte → List Byte) (nonce : BitVec 96)
    (aad plaintext : List Byte) (s : State) : Option Sealed :=
  (perform (sivHash aad plaintext) s).map fun (t, r) =>
    let tag := sivTag encryptBlock nonce r.res
    ⟨counterMode tag plaintext, tag, t⟩

/-- SIV decryption in the order of R83: take the trailing 16 bytes as the claimed tag, decrypt under it, run the sequence of R81 over the
recovered plaintext, turn the `S` it reads into the expected tag, and only then `TAG.EQ expected, claimed`. On a mismatch the
buffer already holds the decrypted bytes (R83). DESIGN CHOICE (log 18): they stay there; R85 lets a host zero the buffer then, and
this one does not. DESIGN CHOICE (log 16): a buffer without room for a tag is rejected. -/
def sivDecrypt (encryptBlock : Lane → Lane) (counterMode : Lane → List Byte → List Byte) (nonce : BitVec 96)
    (aad buffer : List Byte) (s : State) : Option Opened :=
  if buffer.length < Config.chunkBytes then none
  else
    let claimed := buffer.drop (buffer.length - Config.chunkBytes)
    let plaintext := counterMode (le128 claimed) (buffer.take (buffer.length - Config.chunkBytes))
    (perform (sivHash aad plaintext) s).bind fun (t, hash) =>
      let expected := sivTag encryptBlock nonce hash.res
      (perform (tagCheck (bytes16 expected) claimed) t).map fun (u, r) => ⟨authenticated r, plaintext, u⟩

/-! ## The stream-cipher construction (R86) -/

/-- Stream-cipher decryption: recompute the expected tag with the other MAC, `TAG.EQ expected, claimed`, and decrypt only if it answers
equal; else the buffer is left as it is. DESIGN CHOICE (log 16): a buffer without room for a tag is rejected. -/
def streamDecrypt (mac : List Byte → List Byte → Lane) (xorStream : List Byte → List Byte) (aad buffer : List Byte) (s : State) :
    Option Opened :=
  if buffer.length < Config.chunkBytes then none
  else
    let claimed := buffer.drop (buffer.length - Config.chunkBytes)
    let ciphertext := buffer.take (buffer.length - Config.chunkBytes)
    (perform (tagCheck (bytes16 (mac aad ciphertext)) claimed) s).map fun (t, r) =>
      ⟨authenticated r, if authenticated r then xorStream ciphertext else ciphertext, t⟩

/-- What the host passes on as authentic: nothing after `RES[0]` = 0 (R85, R115). -/
def Opened.released (o : Opened) : Option (List Byte) := if o.authentic then some o.message else none

end Sys2Proof.Machine
end

