-- ==== Sys2Proof/Machine/Listing.lean ====
section
/-! DEFINITION. The listing syntax (30_encoding.md R39) and the encoded form (R43), as text. A 128-bit operand is always written as
`0x` and 32 digits, the first of the two forms R39 allows; digits are lower case as in its examples (log 8). -/

namespace Sys2Proof.Machine

/-- One hexadecimal digit; the value is below 16. -/
def hexDigit (d : Nat) : Char := if d < 10 then Char.ofNat (48 + d) else Char.ofNat (87 + d)

/-- The low `n` hexadecimal digits of `v`, most significant first. -/
def hexDigits : Nat → Nat → List Char
  | 0, _ => []
  | n + 1, v => hexDigits n (v / 16) ++ [hexDigit (v % 16)]

/-- `0x` and `n` digits. -/
def hexValue (n v : Nat) : List Char := '0' :: 'x' :: hexDigits n v

/-- A byte string, `h` and two digits per byte between double quotes (character 34), first byte first (R39). -/
def byteStringText (bs : List Byte) : List Char :=
  ['h', Char.ofNat 34] ++ bs.flatMap (fun b => hexDigits 2 b.toNat) ++ [Char.ofNat 34]

/-- The encoded form of a request, `CW OPA OPB` with 8, 32 and 32 digits (R43). -/
def encodedForm (f : Request) : List Char :=
  hexDigits 8 f.cw.toNat ++ [' '] ++ hexDigits 32 f.opa.toNat ++ [' '] ++ hexDigits 32 f.opb.toNat

/-- The name of a command, upper case, the dot part of it (R33, R39). -/
def opcodeMnemonic : Opcode → String
  | .clmul => "CLMUL"
  | .pvKey => "PV.KEY"
  | .pvReset => "PV.RESET"
  | .pvAbsorb => "PV.ABSORB"
  | .pvRead => "PV.READ"
  | .tagEq => "TAG.EQ"

/-- The operands of a listing line, separated by commas (R39). -/
def operandsText : Instr → List Char
  | .clmul a b => ' ' :: hexValue 16 a.toNat ++ [',', ' '] ++ hexValue 16 b.toNat
  | .pvKey k => ' ' :: hexValue 32 k.toNat
  | .pvReset => []
  | .pvAbsorb n d => ' ' :: (Nat.toDigits 10 n.toNat) ++ [',', ' '] ++ hexValue 32 d.toNat
  | .pvRead => []
  | .tagEq x y => ' ' :: hexValue 32 x.toNat ++ [',', ' '] ++ hexValue 32 y.toNat

/-- The listing line of a command (R39). -/
def listing (i : Instr) : List Char := (opcodeMnemonic i.opcode).toList ++ operandsText i

/-- The name of a status (R91). -/
def Status.name : Status → String
  | .ok => "OK"
  | .error .errIllegal => "ERR_ILLEGAL"
  | .error .errLen => "ERR_LEN"
  | .error .errNoKey => "ERR_NOKEY"

/-- A response as a listing writes it, `-> OK, RES` or `-> ERR_x`; `RES` is left out when it is 0 (R39). -/
def responseListing (r : Response) : List Char :=
  ['-', '>', ' '] ++ r.st.name.toList ++ (if r.res = 0#128 then [] else [',', ' '] ++ hexValue 32 r.res.toNat)

end Sys2Proof.Machine
end

