-- ==== Sys2Proof/WellFormed.lean ====
section
/-! DEFINITION. The one operand that has illegal values: the length of a chunk (30_encoding.md R34: 0 to 16 are legal, 17 to 31
"can be encoded but are an error"). Every other operand may hold any value (R48, R62, R73). An ill-formed `PV.ABSORB` still has a
meaning: the response `ERR_LEN` (R93). -/

namespace Sys2Proof

/-- R34: `PV.ABSORB` has a length of 0 to 16; the other commands have no illegal operand. -/
def Instr.wellFormed : Instr → Bool
  | .clmul _ _ => true
  | .pvKey _ => true
  | .pvReset => true
  | .pvAbsorb n _ => decide (n.toNat ≤ 16)
  | .pvRead => true
  | .tagEq _ _ => true

end Sys2Proof
end

