-- ==== Sys2Proof/Safety.lean ====
section
/-! DEFINITION. What counts as a safe run, and the invariant of the machine. -/

namespace Sys2Proof.Machine

/-- "no command returned an error status": the premise R104 asks a claim about a host's program to take or to prove. -/
def State.errorFree (s : State) : Bool := s.responses.all (fun r => decide (r.st = .ok))

/-- The key a command needs is there (R94): only `PV.ABSORB` and `PV.READ` need one. -/
def Instr.keyReady (i : Instr) (s : State) : Bool :=
  match i with
  | .clmul _ _ => true
  | .pvKey _ => true
  | .pvReset => true
  | .pvAbsorb _ _ => s.kv
  | .pvRead => s.kv
  | .tagEq _ _ => true

/-- Until a key is loaded `KEY` and `ACC` are zero, so that nothing is held that no command accounts for (R11, R12, R13, R19); and
every error response carries a zero result (R41, R96). -/
def State.Inv (s : State) : Prop :=
  (s.kv = false → s.key = 0#128 ∧ s.acc = 0#128) ∧
    ∀ r ∈ s.responses, r.st ≠ .ok → r.res = 0#128

/-- No host can tell the two states apart: the same inputs to come, the same responses so far, and the same registers but for what `KEY`
and `ACC` hold while `KV` is 0 in both (R13, R19). -/
def State.indistinguishable (s s' : State) : Prop :=
  s.inputs = s'.inputs ∧ s.responses = s'.responses ∧ (s = s' ∨ (s.kv = false ∧ s'.kv = false))

end Sys2Proof.Machine
end

