-- ==== Sys2Proof/Certificates/Slice0/Obligations.lean ====
section
/-! DEFINITION. The statements for the provers. Each docstring names the rules of spec/ it formalises. A response is seen as the last
entry of `responses`, which is how this model holds what the block returns (log 1). -/

open Sys2Proof Sys2Proof.Machine

/-! ## Encoding and decoding -/

/-- R32, R33, R35: no operand bit is lost between encoder and decoder, for every command and every operand, the lengths 17 to 31 that
R34 calls encodable included. -/
def Obligations.DecodeEncodeRoundTrip : Prop :=
  ∀ i : Instr, decode (encode i) = .ok i

/-- The other direction: a frame that decodes is the encoding of its command, but for bits the command ignores (R35). -/
def Obligations.EncodeDecodeKeepsUsedBits : Prop :=
  ∀ (f : Request) (i : Instr), decode f = .ok i →
    (encode i).cw = f.cw ∧ sameOperands i.opcode i.lenField (encode i) f

/-- Words written out from R32 and R33 decode to the commands they stand for; the frames are those of 95_test_vectors.md. -/
def Obligations.WrittenWordsDecode : Prop :=
  decode ⟨0b00000000000000000000000000000001#32, 0x123456789abcdef00000000000000003#128, 7#128⟩ = .ok (.clmul 3#64 7#64) ∧
  decode ⟨0b00000000000000000000000000000010#32, 0x7773da7a98c6dbc51a9494962760b3d9#128, 0#128⟩ =
    .ok (.pvKey 0x7773da7a98c6dbc51a9494962760b3d9#128) ∧
  decode ⟨0b00000000000000000000000000000011#32, 0#128, 0#128⟩ = .ok .pvReset ∧
  decode ⟨0b00000000000000000000000010000100#32, 1#128, 0#128⟩ = .ok (.pvAbsorb 8#5 1#128) ∧
  decode ⟨0b00000000000000000000000100000100#32, 1#128, 0#128⟩ = .ok (.pvAbsorb 16#5 1#128) ∧
  decode ⟨0b00000000000000000000000000000101#32, 0#128, 0#128⟩ = .ok .pvRead ∧
  decode ⟨0b00000000000000000000000000000110#32, 1#128, 2#128⟩ = .ok (.tagEq 1#128 2#128) ∧
  decode ⟨0#32, 0#128, 0#128⟩ = .error .reservedOpcode ∧
  decode ⟨0b00000000000000000000000000010001#32, 0#128, 0#128⟩ = .error .lengthNotZero ∧
  decode ⟨0b00000000000000000000001000000010#32, 0#128, 0#128⟩ = .error .reservedBits

/-- opcode_table.json: a word decodes to a command exactly when the command's row covers it, and no word is covered by two rows. -/
def Obligations.DecodeAgreesWithOpcodeTable : Prop :=
  (∀ (f : Request) (op : Opcode),
    (∃ i, decode f = .ok i ∧ i.opcode = op) ↔ ∃ r ∈ opcodeTable, r.op = op ∧ r.covers f.cw = true) ∧
  ∀ (cw : CommandWord), ∀ r ∈ opcodeTable, ∀ q ∈ opcodeTable, r.covers cw = true → q.covers cw = true → r = q

/-- R35: which bits of the lanes are the operands, and that no other bit matters to the response or to the next state. -/
def Obligations.OperandLanes : Prop :=
  (∀ opa opb : Lane,
    decode ⟨0x1#32, opa, opb⟩ = .ok (.clmul (opa.extractLsb' 0 64) (opb.extractLsb' 0 64)) ∧
    decode ⟨0x2#32, opa, opb⟩ = .ok (.pvKey opa) ∧
    decode ⟨0x3#32, opa, opb⟩ = .ok .pvReset ∧
    decode ⟨0x5#32, opa, opb⟩ = .ok .pvRead ∧
    decode ⟨0x6#32, opa, opb⟩ = .ok (.tagEq opa opb)) ∧
  (∀ (n : Nat) (opa opb : Lane), n ≤ 16 →
    decode ⟨BitVec.ofNat 32 (0x4 + 0x10 * n), opa, opb⟩ = .ok (.pvAbsorb (BitVec.ofNat 5 n) opa)) ∧
  ∀ (s : State) (f g : Request) (i : Instr) (rest : List HostInput),
    decode f = .ok i → f.cw = g.cw → sameOperands i.opcode i.lenField f g →
      step (s.presenting f rest) = step (s.presenting g rest)

/-- R37 and R95: the tests of the decoder in the spec's order, the first that fires deciding the response; the command executed when
none fires. -/
def Obligations.DecodeOrderAndErrorPriority : Prop :=
  ∀ (s : State) (cw : CommandWord) (opa opb : Lane) (rest : List HostInput),
    let ended (e : ErrorCode) : Out :=
      .next { s with inputs := rest, responses := s.responses ++ [⟨.error e, 0#128⟩] }
    let execute (i : Instr) : Out := exec i { s with inputs := rest }
    let op : BitVec 4 := cw.extractLsb' 0 4
    let len : BitVec 5 := cw.extractLsb' 4 5
    step (s.presenting ⟨cw, opa, opb⟩ rest) =
      if cw.extractLsb' 9 23 ≠ 0#23 then ended .errIllegal
      else if op = 0#4 ∨ 7 ≤ op.toNat then ended .errIllegal
      else if op ≠ 4#4 ∧ len ≠ 0#5 then ended .errIllegal
      else if op = 4#4 ∧ 16 < len.toNat then ended .errLen
      else if (op = 4#4 ∨ op = 5#4) ∧ s.kv = false then ended .errNoKey
      else if op = 1#4 then execute (.clmul (opa.extractLsb' 0 64) (opb.extractLsb' 0 64))
      else if op = 2#4 then execute (.pvKey opa)
      else if op = 3#4 then execute .pvReset
      else if op = 4#4 then execute (.pvAbsorb len opa)
      else if op = 5#4 then execute .pvRead
      else execute (.tagEq opa opb)

/-- A step runs the decoded command, and nothing else: it takes the request off the host's list and executes; a reserved word ends
in `ERR_ILLEGAL`. The list is the model's way to hold the host's order of issue (log 1). -/
def Obligations.StepRunsDecodedCommand : Prop :=
  ∀ (s : State) (f : Request) (rest : List HostInput), s.inputs = .request f :: rest →
    (∀ i, decode f = .ok i → step s = exec i { s with inputs := rest }) ∧
    (∀ e, decode f = .error e →
      step s = .next { s with inputs := rest, responses := s.responses ++ [⟨.error .errIllegal, 0#128⟩] })

/-! ## Errors -/

/-- R36 and R92: exactly the reserved words answer `ERR_ILLEGAL`, with no effect; every other word is a command. The lanes are free in the
condition, so they are never the cause. -/
def Obligations.ReservedWordsAreIllegal : Prop :=
  ∀ (s : State) (f : Request) (rest : List HostInput),
    let op : BitVec 4 := f.cw.extractLsb' 0 4
    let reserved : Prop := f.cw.extractLsb' 9 23 ≠ 0#23 ∨ op = 0x0#4 ∨ 0x7 ≤ op.toNat ∨
      ((op = 0x1#4 ∨ op = 0x2#4 ∨ op = 0x3#4 ∨ op = 0x5#4 ∨ op = 0x6#4) ∧ f.cw.extractLsb' 4 5 ≠ 0#5)
    (reserved →
      step (s.presenting f rest) =
        .next { s with inputs := rest, responses := s.responses ++ [⟨.error .errIllegal, 0#128⟩] }) ∧
    (¬ reserved →
      (∃ i, decode f = .ok i) ∧
      ∃ t r, step (s.presenting f rest) = .next t ∧ t.responses = s.responses ++ [r] ∧ r.st ≠ .error .errIllegal)

/-- R93: `PV.ABSORB` answers `ERR_LEN` exactly when `LEN` is 17 to 31, and no other command does. -/
def Obligations.LengthErrorExactlyAboveSixteen : Prop :=
  (∀ (n : BitVec 5) (d : Lane) (s : State), 17 ≤ n.toNat →
    exec (.pvAbsorb n d) s = .next { s with responses := s.responses ++ [⟨.error .errLen, 0#128⟩] }) ∧
  ∀ (i : Instr) (s t : State) (res : Lane), exec i s = .next t → t.responses = s.responses ++ [⟨.error .errLen, res⟩] →
    ∃ n d, i = .pvAbsorb n d ∧ 17 ≤ n.toNat ∧ n.toNat ≤ 31

/-- R94: `ERR_NOKEY` is the answer of `PV.ABSORB` with `LEN` 0 to 16 and of `PV.READ` exactly when `KV` is 0, and of no other command. -/
def Obligations.NoKeyErrorExactlyWithoutKey : Prop :=
  (∀ (n : BitVec 5) (d : Lane) (s : State), s.kv = false → n.toNat ≤ 16 →
    exec (.pvAbsorb n d) s = .next { s with responses := s.responses ++ [⟨.error .errNoKey, 0#128⟩] }) ∧
  (∀ s : State, s.kv = false →
    exec .pvRead s = .next { s with responses := s.responses ++ [⟨.error .errNoKey, 0#128⟩] }) ∧
  ∀ (i : Instr) (s t : State) (res : Lane), exec i s = .next t → t.responses = s.responses ++ [⟨.error .errNoKey, res⟩] →
    s.kv = false ∧ (i = .pvRead ∨ ∃ n d, i = .pvAbsorb n d ∧ n.toNat ≤ 16)

/-- R96: a request that ends in an error leaves the whole state as it was, and its result is 0. -/
def Obligations.ErrorHasNoEffect : Prop :=
  ∀ (s t : State) (f : Request) (rest : List HostInput) (e : ErrorCode) (res : Lane),
    step (s.presenting f rest) = .next t → t.responses = s.responses ++ [⟨.error e, res⟩] →
      res = 0#128 ∧ t.key = s.key ∧ t.acc = s.acc ∧ t.kv = s.kv ∧ t.inputs = rest

/-- R97: an error does not stick. Whatever request `g` follows a request `f` that ended in an error, it gets the response and leaves
the state it would have without `f`. -/
def Obligations.ErrorsDoNotStick : Prop :=
  ∀ (s t u : State) (f g : Request) (rest : List HostInput) (e : ErrorCode) (res : Lane) (r : Response),
    step (s.presenting f (.request g :: rest)) = .next t → t.responses = s.responses ++ [⟨.error e, res⟩] →
    step (s.presenting g rest) = .next u → u.responses = s.responses ++ [r] →
      step t = .next { u with responses := s.responses ++ [⟨.error e, 0#128⟩, r] }

/-- R91: the codes of the four statuses; the codes 0x4 to 0xF stand for none. -/
def Obligations.StatusCodes : Prop :=
  Status.code .ok = 0x0#4 ∧ Status.code (.error .errIllegal) = 0x1#4 ∧ Status.code (.error .errLen) = 0x2#4 ∧
  Status.code (.error .errNoKey) = 0x3#4 ∧ (∀ st : Status, st.code.toNat ≤ 3 ∧ Status.ofCode st.code = some st) ∧
  ∀ c : BitVec 4, 4 ≤ c.toNat → Status.ofCode c = none

/-! ## The machine as a whole -/

/-- R31: every request, legal or not, gets exactly one response, at once: never none, never two, whatever the state. -/
def Obligations.EveryRequestAnsweredOnce : Prop :=
  ∀ (s : State) (f : Request) (rest : List HostInput), s.inputs = .request f :: rest →
    ∃ t r, step s = .next t ∧ t.responses = s.responses ++ [r] ∧ t.inputs = rest

/-- R31, R99, R114: no state and no command ends in a fault or a refusal. -/
def Obligations.NothingStopsTheBlock : Prop :=
  (∀ s : State, ∃ t, step s = .next t) ∧ ∀ (i : Instr) (s : State), ∃ t, exec i s = .next t

/-- The model's choice (log 2): with no request presented the block stays exactly as it is. -/
def Obligations.IdleStepChangesNothing : Prop :=
  ∀ s : State, s.inputs = [] → step s = .next s

/-- R17: the response and the next `KEY`, `ACC`, `KV` are a function of `KEY`, `ACC`, `KV` and the request frame only: two states that
agree on the three answer alike, whatever was answered before and whatever comes next. -/
def Obligations.ResultDependsOnRegistersAndFrameOnly : Prop :=
  ∀ (s s' : State) (f : Request) (rest rest' : List HostInput),
    s.key = s'.key → s.acc = s'.acc → s.kv = s'.kv →
      ∃ (k a : Lane) (v : Bool) (r : Response),
        step (s.presenting f rest) = .next ⟨k, a, v, rest, s.responses ++ [r]⟩ ∧
        step (s'.presenting f rest') = .next ⟨k, a, v, rest', s'.responses ++ [r]⟩

/-- The frame of all six commands (the columns "written by" of R10 and "writes state" of R18). -/
def Obligations.OnlyListedCommandsWriteState : Prop :=
  ∀ (i : Instr) (s t : State), exec i s = .next t →
    t.inputs = s.inputs ∧ (∃ r, t.responses = s.responses ++ [r]) ∧
    (t.key ≠ s.key → i.opcode = .pvKey) ∧
    (t.acc ≠ s.acc → i.opcode = .pvKey ∨ i.opcode = .pvReset ∨ i.opcode = .pvAbsorb) ∧
    (t.kv ≠ s.kv → i.opcode = .pvKey)

/-- The column "reads state" of R18, read off the responses: no response depends on `KEY` ("there is no way to read `KEY` back", R11),
only `PV.READ`'s on `ACC`, and only those of `PV.READ` and `PV.ABSORB` on `KV`. -/
def Obligations.NoResponseDependsOnKey : Prop :=
  ∀ (i : Instr) (s s' : State),
    (i.opcode = .pvRead → s.acc = s'.acc) → (i.opcode = .pvRead ∨ i.opcode = .pvAbsorb → s.kv = s'.kv) →
      ∃ (t t' : State) (r : Response), exec i s = .next t ∧ exec i s' = .next t' ∧
        t.responses = s.responses ++ [r] ∧ t'.responses = s'.responses ++ [r]

/-- R13: `KV` is 0 after reset, 1 after a `PV.KEY`, never set back by a command, cleared by the hardware reset; while it is 0 the two
commands that need a key change nothing; and a host learns it from an `ERR_NOKEY` status only. -/
def Obligations.KeyValidFlag : Prop :=
  State.reset.kv = false ∧
  (∀ (k : Lane) (s : State), ∃ t, exec (.pvKey k) s = .next t ∧ t.kv = true) ∧
  (∀ (i : Instr) (s t : State), exec i s = .next t → t.kv = s.kv ∨ (i.opcode = .pvKey ∧ t.kv = true)) ∧
  (∀ (s : State) (p : Option Request) (rest : List HostInput), s.inputs = .hardReset p :: rest →
    ∃ t, step s = .next t ∧ t.kv = false) ∧
  (∀ s : State, s.kv = false →
    (∀ (n : BitVec 5) (d : Lane), n.toNat ≤ 16 →
      exec (.pvAbsorb n d) s = .next { s with responses := s.responses ++ [⟨.error .errNoKey, 0#128⟩] }) ∧
    exec .pvRead s = .next { s with responses := s.responses ++ [⟨.error .errNoKey, 0#128⟩] }) ∧
  ∀ (i : Instr) (s : State), s.kv = false → ∃ (t u : State) (r : Response),
    exec i s = .next t ∧ exec i { s with kv := true } = .next u ∧ u.responses = s.responses ++ [r] ∧
      (t.responses = s.responses ++ [r] ∨ t.responses = s.responses ++ [⟨.error .errNoKey, 0#128⟩])

/-- R105: the hardware reset, also in the middle of a command, gives the values of R19 and no response, and leaves the block ready for
the next input; no command does its work. -/
def Obligations.HardwareReset : Prop :=
  (∀ (s : State) (p : Option Request) (rest : List HostInput), s.inputs = .hardReset p :: rest →
    step s = .next { key := 0#128, acc := 0#128, kv := false, inputs := rest, responses := s.responses }) ∧
  (∀ (i : Instr) (s t : State), exec i s = .next t →
    (s.kv = true → t.kv = true) ∧ (t.key ≠ s.key → i = .pvKey t.key)) ∧
  ∀ s : State, exec .pvReset s = .next { s with acc := 0#128, responses := s.responses ++ [⟨.ok, 0#128⟩] }

/-- R19: the reset values; and that with `KV` = 0 what `KEY` and `ACC` hold is not observable through any commands: two states that
differ only there give the same responses for ever, whatever the host does. The runs pass through steps with no request presented, where
the block waits by the model's own reading (log 2). -/
def Obligations.ResetValuesUnobservable : Prop :=
  (State.reset.key = 0#128 ∧ State.reset.acc = 0#128 ∧ State.reset.kv = false) ∧
  ∀ (n : Nat) (s s' : State), s.kv = false → s'.kv = false → s.inputs = s'.inputs → s.responses = s'.responses →
    ∃ t t' : State, Host.Core.run Sys2Proof.core n s = .next t ∧ Host.Core.run Sys2Proof.core n s' = .next t' ∧
      t.responses = t'.responses

/-- The step behind the statement above, from every pair of states and not from runs: two states no host can tell apart lead to two such
states. The spec's own remark on R19; a step with no request presented is log 2's. -/
def Obligations.StepKeepsIndistinguishable : Prop :=
  ∀ s s' t t' : State, s.indistinguishable s' → step s = .next t → step s' = .next t' → t.indistinguishable t'

/-- Every step keeps the invariant of Safety.lean: `KEY` and `ACC` are zero until a key is loaded, and error responses carry zero. -/
def Obligations.StepKeepsInvariant : Prop :=
  ∀ s t : State, s.Inv → step s = .next t → t.Inv

/-- The invariant holds after reset. -/
def Obligations.ResetMeetsInvariant : Prop := State.reset.Inv

/-- R90 to R94 for a host that does its duty (R104): a command answers `OK` exactly when it is well formed and the key it needs is there. -/
def Obligations.OkExactlyWhenWellFormedAndKeyed : Prop :=
  ∀ (i : Instr) (s : State), ∃ (t : State) (r : Response), exec i s = .next t ∧ t.responses = s.responses ++ [r] ∧
    (r.st = .ok ↔ i.wellFormed = true ∧ Instr.keyReady i s = true)

/-- R104: "no command returned an error status" can be proved: commands that are all well formed, issued with a key loaded, run to the end
without an error, and the key stays loaded. -/
def Obligations.WellFormedCommandsRunWithoutError : Prop :=
  ∀ (s : State) (is : List Instr), s.kv = true → s.errorFree = true → (∀ i ∈ is, i.wellFormed = true) →
    ∃ t, Host.Core.run Sys2Proof.core is.length (s.issue is) = .next t ∧ t.errorFree = true ∧ t.kv = true ∧ t.inputs = s.inputs

/-! ## The six commands -/

/-- R48. -/
def Obligations.ClmulCommand : Prop :=
  (∀ (a b : Half) (s : State),
    exec (.clmul a b) s = .next { s with responses := s.responses ++ [⟨.ok, clmul64 a b⟩] }) ∧
  (∀ (opa opb : Lane) (s : State) (rest : List HostInput),
    step (s.presenting ⟨0x00000001#32, opa, opb⟩ rest) =
      .next { s with inputs := rest,
                     responses := s.responses ++ [⟨.ok, clmul64 (opa.extractLsb' 0 64) (opb.extractLsb' 0 64)⟩] }) ∧
  (∀ (cw : CommandWord) (opa opb : Lane) (s : State) (rest : List HostInput),
    cw.extractLsb' 0 4 = 0x1#4 → cw.extractLsb' 4 28 ≠ 0#28 →
      step (s.presenting ⟨cw, opa, opb⟩ rest) =
        .next { s with inputs := rest, responses := s.responses ++ [⟨.error .errIllegal, 0#128⟩] }) ∧
  (∀ a : Half, clmul64 a 0#64 = 0#128 ∧ clmul64 0#64 a = 0#128) ∧
  (∀ a b : Half, (clmul64 a b).getLsbD 127 = false) ∧
  clmul64 0xffffffffffffffff#64 0xffffffffffffffff#64 = 0x55555555555555555555555555555555#128 ∧
  clmul64 0x8000000000000000#64 0x8000000000000000#64 = 1#128 <<< 126 ∧
  clmul64 3#64 3#64 = 5#128

/-- R62. -/
def Obligations.PvKeyCommand : Prop :=
  (∀ (k : Lane) (s : State),
    exec (.pvKey k) s =
      .next { s with key := k, acc := 0#128, kv := true, responses := s.responses ++ [⟨.ok, 0#128⟩] }) ∧
  (∀ (opa opb : Lane) (s : State) (rest : List HostInput),
    step (s.presenting ⟨0x00000002#32, opa, opb⟩ rest) =
      .next { key := opa, acc := 0#128, kv := true, inputs := rest, responses := s.responses ++ [⟨.ok, 0#128⟩] }) ∧
  (∀ (cw : CommandWord) (opa opb : Lane) (s : State) (rest : List HostInput),
    cw.extractLsb' 0 4 = 0x2#4 → cw.extractLsb' 4 28 ≠ 0#28 →
      step (s.presenting ⟨cw, opa, opb⟩ rest) =
        .next { s with inputs := rest, responses := s.responses ++ [⟨.error .errIllegal, 0#128⟩] }) ∧
  le128 [0xd9#8, 0xb3#8, 0x60#8, 0x27#8, 0x96#8, 0x94#8, 0x94#8, 0x1a#8, 0xc5#8, 0xdb#8, 0xc6#8, 0x98#8, 0x7a#8, 0xda#8, 0x73#8,
    0x77#8] = 0x7773da7a98c6dbc51a9494962760b3d9#128

/-- R63. -/
def Obligations.PvResetCommand : Prop :=
  (∀ s : State, exec .pvReset s = .next { s with acc := 0#128, responses := s.responses ++ [⟨.ok, 0#128⟩] }) ∧
  (∀ (opa opb : Lane) (s : State) (rest : List HostInput),
    step (s.presenting ⟨0x00000003#32, opa, opb⟩ rest) =
      .next { s with acc := 0#128, inputs := rest, responses := s.responses ++ [⟨.ok, 0#128⟩] }) ∧
  (∀ (cw : CommandWord) (opa opb : Lane) (s : State) (rest : List HostInput),
    cw.extractLsb' 0 4 = 0x3#4 → cw.extractLsb' 4 28 ≠ 0#28 →
      step (s.presenting ⟨cw, opa, opb⟩ rest) =
        .next { s with inputs := rest, responses := s.responses ++ [⟨.error .errIllegal, 0#128⟩] }) ∧
  ∀ s t : State, exec .pvReset s = .next t →
    ∃ u, exec .pvReset t = .next u ∧ u.key = t.key ∧ u.acc = t.acc ∧ u.kv = t.kv

/-- R65: the effect, the errors in their order, the corner cases and the example. -/
def Obligations.PvAbsorbCommand : Prop :=
  let answer (s : State) (acc : Lane) : Out :=
    .next { s with acc := acc, responses := s.responses ++ [⟨.ok, 0#128⟩] }
  (∀ (n : BitVec 5) (d : Lane) (s : State), s.kv = true → 1 ≤ n.toNat → n.toNat ≤ 16 →
    exec (.pvAbsorb n d) s = answer s (gfmul (s.acc ^^^ (d &&& maskBytes n.toNat)) s.key)) ∧
  (∀ (d : Lane) (s : State), s.kv = true → exec (.pvAbsorb 0#5 d) s = answer s s.acc) ∧
  (∀ (n : BitVec 5) (d : Lane) (s : State), 16 < n.toNat →
    exec (.pvAbsorb n d) s = .next { s with responses := s.responses ++ [⟨.error .errLen, 0#128⟩] }) ∧
  (∀ (n : BitVec 5) (d : Lane) (s : State), s.kv = false → n.toNat ≤ 16 →
    exec (.pvAbsorb n d) s = .next { s with responses := s.responses ++ [⟨.error .errNoKey, 0#128⟩] }) ∧
  (∀ (n : Nat) (opa opb : Lane) (s : State) (rest : List HostInput), n ≤ 31 →
    step (s.presenting ⟨BitVec.ofNat 32 (0x00000004 + 0x10 * n), opa, opb⟩ rest) =
      exec (.pvAbsorb (BitVec.ofNat 5 n) opa) { s with inputs := rest }) ∧
  (∀ (cw : CommandWord) (opa opb : Lane) (s : State) (rest : List HostInput),
    cw.extractLsb' 0 4 = 0x4#4 → cw.extractLsb' 9 23 ≠ 0#23 →
      step (s.presenting ⟨cw, opa, opb⟩ rest) =
        .next { s with inputs := rest, responses := s.responses ++ [⟨.error .errIllegal, 0#128⟩] }) ∧
  (∀ s : State, s.kv = true → exec (.pvAbsorb 16#5 0#128) s = answer s (gfmul s.acc s.key)) ∧
  (∀ (n : BitVec 5) (d : Lane) (s : State), 1 ≤ n.toNat → n.toNat ≤ 16 →
    exec (.pvAbsorb n d) s = exec (.pvAbsorb 16#5 (d &&& maskBytes n.toNat)) s) ∧
  (∀ (n : BitVec 5) (s : State), s.kv = true → s.acc = 0#128 → n.toNat ≤ 16 → exec (.pvAbsorb n 0#128) s = answer s 0#128) ∧
  (∀ (n : BitVec 5) (d : Lane) (s : State), s.kv = true → s.key = 0#128 → 1 ≤ n.toNat → n.toNat ≤ 16 →
    exec (.pvAbsorb n d) s = answer s 0#128) ∧
  gfmul (0#128 ^^^ (1#128 &&& maskBytes 8)) 0x7773da7a98c6dbc51a9494962760b3d9#128 = 0x069c266d87a58d615b4ed2d1914607a4#128

/-- R66. -/
def Obligations.PvReadCommand : Prop :=
  (∀ s : State, s.kv = true → exec .pvRead s = .next { s with responses := s.responses ++ [⟨.ok, s.acc⟩] }) ∧
  (∀ s : State, s.kv = false →
    exec .pvRead s = .next { s with responses := s.responses ++ [⟨.error .errNoKey, 0#128⟩] }) ∧
  (∀ (opa opb : Lane) (s : State) (rest : List HostInput),
    step (s.presenting ⟨0x00000005#32, opa, opb⟩ rest) = exec .pvRead { s with inputs := rest }) ∧
  (∀ (cw : CommandWord) (opa opb : Lane) (s : State) (rest : List HostInput),
    cw.extractLsb' 0 4 = 0x5#4 → cw.extractLsb' 4 28 ≠ 0#28 →
      step (s.presenting ⟨cw, opa, opb⟩ rest) =
        .next { s with inputs := rest, responses := s.responses ++ [⟨.error .errIllegal, 0#128⟩] }) ∧
  (∀ s t : State, exec .pvRead s = .next t → ∃ u r, exec .pvRead t = .next u ∧
    t.responses = s.responses ++ [r] ∧ u.responses = s.responses ++ [r, r]) ∧
  (∀ (k : Lane) (s t : State), exec (.pvKey k) s = .next t →
    exec .pvRead t = .next { t with responses := t.responses ++ [⟨.ok, 0#128⟩] }) ∧
  ∀ s t : State, s.kv = true → exec .pvReset s = .next t →
    exec .pvRead t = .next { t with responses := t.responses ++ [⟨.ok, 0#128⟩] }

/-- R73 and R75: one bit, 1 exactly when all 128 bits are equal, and `OK` either way. -/
def Obligations.TagEqCommand : Prop :=
  (∀ (x y : Lane) (s : State),
    exec (.tagEq x y) s =
      .next { s with responses := s.responses ++ [⟨.ok, if x = y then 1#128 else 0#128⟩] }) ∧
  (∀ (opa opb : Lane) (s : State) (rest : List HostInput),
    step (s.presenting ⟨0x00000006#32, opa, opb⟩ rest) =
      .next { s with inputs := rest, responses := s.responses ++ [⟨.ok, if opa = opb then 1#128 else 0#128⟩] }) ∧
  (∀ (cw : CommandWord) (opa opb : Lane) (s : State) (rest : List HostInput),
    cw.extractLsb' 0 4 = 0x6#4 → cw.extractLsb' 4 28 ≠ 0#28 →
      step (s.presenting ⟨cw, opa, opb⟩ rest) =
        .next { s with inputs := rest, responses := s.responses ++ [⟨.error .errIllegal, 0#128⟩] }) ∧
  (∀ x y : Lane, equalBit x y = BitVec.ofBool (decide (x = y))) ∧
  ∀ (x y : Lane) (s : State), exec (.tagEq x y) s = exec (.tagEq y x) s

/-- R76: the response of `TAG.EQ` tells nothing but whether the tags are equal. -/
def Obligations.TagEqRevealsOneBit : Prop :=
  (∀ (x y x' y' : Lane) (s : State), (x = y ↔ x' = y') → exec (.tagEq x y) s = exec (.tagEq x' y') s) ∧
  ∀ (x y : Lane) (s : State), ∃ (t : State) (r : Response), exec (.tagEq x y) s = .next t ∧
    t.responses = s.responses ++ [r] ∧ ∀ j, 1 ≤ j → r.res.getLsbD j = false

/-! ## Operands -/

/-- R20: the little-endian map between 16 bytes and a lane, both ways, and the example. -/
def Obligations.LittleEndianLane : Prop :=
  (∀ (B : List Byte) (i : Nat), B.length = 16 → i < 16 → (le128 B).extractLsb' (8 * i) 8 = B[i]?.getD 0#8) ∧
  (∀ (v : Lane) (i : Nat), i < 16 → (bytes16 v)[i]? = some (v.extractLsb' (8 * i) 8)) ∧
  (∀ B : List Byte, B.length = 16 → bytes16 (le128 B) = B) ∧
  (∀ v : Lane, le128 (bytes16 v) = v ∧ (bytes16 v).length = 16) ∧
  le128 [0xd9#8, 0xb3#8, 0x60#8, 0x27#8, 0x96#8, 0x94#8, 0x94#8, 0x1a#8, 0xc5#8, 0xdb#8, 0xc6#8, 0x98#8, 0x7a#8, 0xda#8, 0x73#8,
    0x77#8] = 0x7773da7a98c6dbc51a9494962760b3d9#128

/-- R64: the mask, its values, and that masking is padding the chunk with zero bytes. -/
def Obligations.ChunkMask : Prop :=
  (∀ n j : Nat, n ≤ 16 → j < 128 → (maskBytes n).getLsbD j = decide (j < 8 * n)) ∧
  maskBytes 0 = 0#128 ∧ maskBytes 1 = 0xFF#128 ∧ maskBytes 8 = 0x0000000000000000FFFFFFFFFFFFFFFF#128 ∧
  maskBytes 16 = BitVec.allOnes 128 ∧
  ∀ (n : Nat) (v : Lane), n ≤ 16 →
    bytes16 (v &&& maskBytes n) = (bytes16 v).take n ++ List.replicate (16 - n) 0#8

/-! ## The carry-less product -/

/-- R45: the loop, and the value bit by bit. -/
def Obligations.ClmulBitByBit : Prop :=
  ∀ a b : Half,
    clmul64 a b =
      (List.range 64).foldl (fun r i => if b.getLsbD i then r ^^^ (a.setWidth 128 <<< i) else r) 0#128 ∧
    ∀ n < 128, (clmul64 a b).getLsbD n =
      (List.range 64).foldl (fun x i => x ^^ (b.getLsbD i && decide (i ≤ n) && a.getLsbD (n - i))) false

/-- R46 (the spec's own inference "[derived: from rule R45]"): the bit-serial multiplier computes the same product. -/
def Obligations.SerialMultiplierAgrees : Prop :=
  ∀ a b : Half, clmul64Serial a b = clmul64 a b

/-- R47 (the spec's own inference "[derived: from rule R45]"): degrees add and nothing is lost. -/
def Obligations.ClmulDegree : Prop :=
  ∀ a b : Half, a ≠ 0#64 → b ≠ 0#64 →
    (clmul64 a b).toNat.log2 = a.toNat.log2 + b.toNat.log2 ∧ clmul64 a b ≠ 0#128

/-- R50 (the spec's own inference "[derived: from rule R45]"): the laws of the carry-less product. -/
def Obligations.ClmulLaws : Prop :=
  (∀ a b : Half, clmul64 a b = clmul64 b a) ∧
  (∀ a b c : Half, clmul64 (a ^^^ c) b = clmul64 a b ^^^ clmul64 c b) ∧
  (∀ a : Half, clmul64 a 1#64 = a.setWidth 128) ∧
  (∀ (a : Half) (k : Nat), k < 64 → clmul64 a (1#64 <<< k) = a.setWidth 128 <<< k) ∧
  ∀ (a : Half) (i : Nat), i < 64 →
    (clmul64 a a).getLsbD (2 * i) = a.getLsbD i ∧ (clmul64 a a).getLsbD (2 * i + 1) = false

/-- R21, R45 (the spec's own inference): the product is the product of polynomials, bit i the coefficient of x^i. -/
def Obligations.ClmulIsPolynomialProduct : Prop :=
  ∀ a b : Half, (clmul64 a b).toNat = polymul a.toNat b.toNat

/-! ## The field multiplication -/

/-- R57: the exchange of the two halves, as words numbered from the least significant end, as words numbered from the most significant end
(the mirror image), and as halves. That it undoes itself is not in R57: it is derived from the exchange. -/
def Obligations.LaneRotate : Prop :=
  ∀ v : Lane,
    (∀ j < 4, (swap64 v).extractLsb' (32 * j) 32 = v.extractLsb' (32 * ((j + 2) % 4)) 32) ∧
    (∀ j < 4, (swap64 v).extractLsb' (32 * (3 - j)) 32 = v.extractLsb' (32 * (3 - (j + 2) % 4)) 32) ∧
    swap64 v = v.extractLsb' 0 64 ++ v.extractLsb' 64 64 ∧ swap64 (swap64 v) = v

/-- R55, R56, R59: the whole function, step by step as the spec writes it, and the intermediates of its first worked trace (R72). -/
def Obligations.GfmulStepByStep : Prop :=
  (∀ a k : Lane,
    let aLo : Half := a.extractLsb' 0 64
    let aHi : Half := a.extractLsb' 64 64
    let kLo : Half := k.extractLsb' 0 64
    let kHi : Half := k.extractLsb' 64 64
    let p0 := clmul64 aLo kLo
    let p1 := clmul64 aLo kHi
    let p2 := clmul64 aHi kLo
    let p3 := clmul64 aHi kHi
    let m := p1 ^^^ p2
    let zLo : Lane := p0 ^^^ (m.extractLsb' 0 64 ++ 0#64)
    let zHi : Lane := p3 ^^^ (0#64 ++ m.extractLsb' 64 64)
    let t1 := clmul64 (zLo.extractLsb' 0 64) 0xC200000000000000#64 ^^^ swap64 zLo
    let t2 := clmul64 (t1.extractLsb' 0 64) 0xC200000000000000#64 ^^^ swap64 t1
    gfmul a k = zHi ^^^ t2) ∧
  foldRound 0x7773da7a98c6dbc51a9494962760b3d9#128 = 0x114ed2d1914607a40573da7a98c6dbc5#128 ∧
  foldRound 0x114ed2d1914607a40573da7a98c6dbc5#128 = 0x069c266d87a58d615b4ed2d1914607a4#128 ∧
  gfmul 1#128 0x7773da7a98c6dbc51a9494962760b3d9#128 = 0x069c266d87a58d615b4ed2d1914607a4#128

/-- R56 (the spec's own inference "[derived: from rule R45]"): `Z` is the polynomial product of `a` and `k`, and its top bit is 0. -/
def Obligations.IntermediateIsPolynomialProduct : Prop :=
  ∀ a k : Lane, (product256 a k).toNat = polymul a.toNat k.toNat ∧ (product256 a k).getLsbD 255 = false

/-- R58 (the spec's own inference): a fold round maps `t = {h, l}` to `(t + l * POLY) / x^64`, and with any other constant than `RC` it
fails to do so for some `t`. -/
def Obligations.FoldRoundDividesByX64 : Prop :=
  (∀ t : Lane, (foldRound t).toNat <<< 64 = t.toNat ^^^ polymul (t.extractLsb' 0 64).toNat Config.poly) ∧
  ∀ rc : Half, rc ≠ 0xC200000000000000#64 →
    ∃ t : Lane, (foldRoundWith rc t).toNat <<< 64 ≠ t.toNat ^^^ polymul (t.extractLsb' 0 64).toNat Config.poly

/-- R60 (the spec's own inference): `gfmul(a, k) = a * k * x^-128 mod POLY`, in the form the spec writes out. -/
def Obligations.GfmulIsReducedProduct : Prop :=
  (∀ a k : Lane, gfmul a k = polymod (polymul (polymul a.toNat k.toNat) Config.xInv)) ∧
  polymod (polymul (2 ^ 128) Config.xInv) = 1#128

/-- R60 (the spec's own inference): `gfmul(a, k)` is the one 128-bit `r` with `r * x^128 = a * k (mod POLY)`. -/
def Obligations.GfmulIsUniqueSolution : Prop :=
  ∀ a k r : Lane, polymod (polymul r.toNat (2 ^ 128)) = polymod (polymul a.toNat k.toNat) ↔ r = gfmul a k

/-- R21, R53, R60 (the spec's own inference): in the polynomial ring over GF(2) itself, `POLY` divides `r * x^128 - a * k`. -/
def Obligations.GfmulCongruenceInPolynomialRing : Prop :=
  let toPoly (v : Lane) : Polynomial (ZMod 2) :=
    ∑ i ∈ Finset.range 128, if v.getLsbD i then Polynomial.X ^ i else 0
  ∀ a k : Lane,
    (Polynomial.X ^ 128 + Polynomial.X ^ 127 + Polynomial.X ^ 126 + Polynomial.X ^ 121 + 1 : Polynomial (ZMod 2)) ∣
      toPoly (gfmul a k) * Polynomial.X ^ 128 - toPoly a * toPoly k

/-- R61 (the spec's own inference), but for its last law, which is the next statement. -/
def Obligations.GfmulLaws : Prop :=
  (∀ a b : Lane, gfmul a b = gfmul b a) ∧
  (∀ a b c : Lane, gfmul (a ^^^ c) b = gfmul a b ^^^ gfmul c b) ∧
  (∀ b : Lane, gfmul 0#128 b = 0#128) ∧
  (∀ a b c : Lane, gfmul (gfmul a b) c = gfmul a (gfmul b c)) ∧
  (∀ a : Lane, gfmul a 0xC2000000000000000000000000000001#128 = a) ∧
  (∀ a : Lane, gfmul a 1#128 = polymod (polymul a.toNat Config.xInv)) ∧
  gfmul 1#128 1#128 = 0x92040000000000000000000000000001#128

/-- R61, last law (the spec's own inference from "the source calls `POLY` irreducible"): no two non-zero elements multiply to zero. -/
def Obligations.GfmulHasNoZeroDivisors : Prop :=
  ∀ a b : Lane, gfmul a b = 0#128 → a = 0#128 ∨ b = 0#128

/-! ## Sequences of commands -/

/-- R68 (the spec's own inference): any sequence of absorbs with a key loaded, each of 1 to 16 bytes, run by the machine itself, leaves
the accumulator the recurrence gives and answers `OK` to each. -/
def Obligations.AbsorbSequence : Prop :=
  ∀ (s : State) (chunks : List (BitVec 5 × Lane)), s.kv = true →
    (∀ c ∈ chunks, 1 ≤ c.1.toNat ∧ c.1.toNat ≤ 16) →
      Host.Core.run Sys2Proof.core chunks.length (s.issue (chunks.map (fun c => .pvAbsorb c.1 c.2))) =
        .next { s with
          acc := absorbChunks s.key s.acc (chunks.map (fun c => c.2 &&& maskBytes c.1.toNat)),
          responses := s.responses ++ List.replicate chunks.length ⟨.ok, 0#128⟩ }

/-- R68 (the spec's own inference): from a cleared accumulator the recurrence is the evaluation of a polynomial at the key. -/
def Obligations.AbsorbEvaluatesPolynomial : Prop :=
  ∀ (k : Lane) (chunks : List Lane), absorbChunks k 0#128 chunks = polynomialAt k chunks

/-- R80: `PV.ABSORBM` issues `ceil(n/16)` commands, none for the empty string, and absorbs the zero-padded blocks of the string. -/
def Obligations.AbsorbMAbsorbsPaddedBlocks : Prop :=
  (∀ data : List Byte, (pvAbsorbM data).length = (data.length + 15) / 16) ∧ pvAbsorbM [] = [] ∧
  ∀ (s : State) (data : List Byte), s.kv = true →
    Host.Core.run Sys2Proof.core (pvAbsorbM data).length (s.issue (pvAbsorbM data)) =
      .next { s with
        acc := absorbChunks s.key s.acc (paddedBlocks data),
        responses := s.responses ++ List.replicate (pvAbsorbM data).length ⟨.ok, 0#128⟩ }

/-- R67 and C5: splitting a field at a multiple of 16 bytes changes nothing; splitting 16 bytes into two short chunks gives another
hash (program P5). -/
def Obligations.RechunkingOnlyAtBlockBoundaries : Prop :=
  (∀ xs ys : List Byte, xs.length % 16 = 0 → pvAbsorbM (xs ++ ys) = pvAbsorbM xs ++ pvAbsorbM ys) ∧
  ∃ (k : Lane) (xs ys : List Byte), xs.length = 8 ∧ ys.length = 8 ∧
    absorbChunks k 0#128 (paddedBlocks (xs ++ ys)) ≠ absorbChunks k 0#128 (paddedBlocks xs ++ paddedBlocks ys)

/-- R84: the length trailer: 8 bytes of one bit length, then 8 bytes of the other, both little-endian. -/
def Obligations.LengthTrailer : Prop :=
  (∀ abits pbits : BitVec 64, ∃ d : Lane, pvLenBlk abits pbits = .pvAbsorb 16#5 d ∧
    ∀ i < 8, byteAt d i = abits.extractLsb' (8 * i) 8 ∧ byteAt d (8 + i) = pbits.extractLsb' (8 * i) 8) ∧
  (∀ data : List Byte, data.length ≤ 2 ^ 36 → (bitLength data).toNat = 8 * data.length) ∧
  encode (pvLenBlk 0#64 64#64) = ⟨0x00000104#32, 0x00000000000000400000000000000000#128, 0#128⟩

/-- R81: the sequence of one message, from any state with a key, returns the hash of its padded fields and its trailer. For a field of 2^61
bytes or more, which R88 forbids the host, the trailer's bit length wraps by the model's choice (log 13); below that it is R84's. -/
def Obligations.SivSequenceReturnsHash : Prop :=
  ∀ (s : State) (aad plaintext : List Byte), s.kv = true →
    let hash := absorbChunks s.key 0#128 (sivBlocks aad plaintext)
    Host.Core.run Sys2Proof.core (sivHash aad plaintext).length (s.issue (sivHash aad plaintext)) =
      .next { s with
        acc := hash,
        responses := s.responses ++ List.replicate ((sivHash aad plaintext).length - 1) ⟨.ok, 0#128⟩ ++ [⟨.ok, hash⟩] }

/-- R83, with R81's masking: decryption takes the trailing 16 bytes as the claimed tag, decrypts, runs the hash sequence over what it
recovered, makes the expected tag from the value that sequence reads, and compares last. What a sound pair of ciphers seals opens again.
Any ciphers may stand in. Not the spec's but the model's: the nonce is read as the little-endian value of its 12 bytes, so that the
masking clause speaks of nonce bit j (log 17, DEDUCED from R20 beside R81); the buffer is not zeroed on a mismatch and keeps the decrypted
bytes (log 18, a choice that R85 leaves open); a buffer shorter than a tag is rejected (log 16, a choice); bit lengths of fields of
2^61 bytes or more wrap (log 13, a choice). -/
def Obligations.SivDecryptHashesThenCompares : Prop :=
  (∀ (encryptBlock : Lane → Lane) (counterMode : Lane → List Byte → List Byte) (nonce : BitVec 96)
      (aad ciphertext tag : List Byte) (s : State), s.kv = true → tag.length = 16 →
    let plaintext := counterMode (le128 tag) ciphertext
    let hash := absorbChunks s.key 0#128 (sivBlocks aad plaintext)
    let equal : Bool := decide (encryptBlock (sivMask nonce hash) = le128 tag)
    sivDecrypt encryptBlock counterMode nonce aad (ciphertext ++ tag) s =
      some { authentic := equal, message := plaintext,
             block := { s with
               acc := hash,
               responses := s.responses ++ List.replicate ((sivHash aad plaintext).length - 1) ⟨.ok, 0#128⟩ ++
                 [⟨.ok, hash⟩, ⟨.ok, if equal then 1#128 else 0#128⟩] } }) ∧
  (∀ (nonce : BitVec 96) (hash : Lane) (j : Nat), j < 128 →
    (sivMask nonce hash).getLsbD j =
      if j < 96 then hash.getLsbD j ^^ nonce.getLsbD j else if j < 127 then hash.getLsbD j else false) ∧
  (∀ (encryptBlock : Lane → Lane) (counterMode : Lane → List Byte → List Byte) (nonce : BitVec 96)
      (aad plaintext : List Byte) (s : State), s.kv = true → (∀ t data, counterMode t (counterMode t data) = data) →
    ∃ e d, sivEncrypt encryptBlock counterMode nonce aad plaintext s = some e ∧
      sivDecrypt encryptBlock counterMode nonce aad (e.ciphertext ++ bytes16 e.tag) e.block = some d ∧
      d.authentic = true ∧ d.message = plaintext) ∧
  ∀ (encryptBlock : Lane → Lane) (counterMode : Lane → List Byte → List Byte) (nonce : BitVec 96) (aad buffer : List Byte)
    (s : State), buffer.length < 16 → sivDecrypt encryptBlock counterMode nonce aad buffer s = none

/-- R86 and R85: the stream-cipher construction compares first, from any state of the block and with any MAC and cipher, decrypts only
when the tags are equal, and passes nothing on otherwise. That a buffer shorter than a tag is rejected is the model's choice
(log 16). -/
def Obligations.StreamDecryptComparesFirst : Prop :=
  (∀ (mac : List Byte → List Byte → Lane) (xorStream : List Byte → List Byte) (aad ciphertext tag : List Byte) (s : State),
    tag.length = 16 →
    let equal : Bool := decide (mac aad ciphertext = le128 tag)
    streamDecrypt mac xorStream aad (ciphertext ++ tag) s =
      some { authentic := equal, message := if equal then xorStream ciphertext else ciphertext,
             block := { s with responses := s.responses ++ [⟨.ok, if equal then 1#128 else 0#128⟩] } }) ∧
  (∀ o : Opened, o.released = if o.authentic then some o.message else none) ∧
  ∀ (mac : List Byte → List Byte → Lane) (xorStream : List Byte → List Byte) (aad buffer : List Byte) (s : State),
    buffer.length < 16 → streamDecrypt mac xorStream aad buffer s = none

/-- R69 (the spec's own inference): three commands give `gfmul`, from any state. -/
def Obligations.GfmulThroughCommands : Prop :=
  ∀ (s : State) (a k : Lane),
    Host.Core.run Sys2Proof.core 3 (s.issue (gfmulCommands a k)) =
      .next { s with
        key := k, acc := gfmul a k, kv := true,
        responses := s.responses ++ [⟨.ok, 0#128⟩, ⟨.ok, 0#128⟩, ⟨.ok, gfmul a k⟩] }

/-- R43: the encoded form of a request has 8, 32 and 32 digits and tells every bit of it; and the spec's example. That the digits are lower
case is the model's choice (log 8). -/
def Obligations.EncodedFormIsFaithful : Prop :=
  (∀ f : Request, (encodedForm f).length = 8 + 1 + 32 + 1 + 32) ∧
  (∀ f g : Request, encodedForm f = encodedForm g → f = g) ∧
  encodedForm (encode (.pvAbsorb 8#5 (le128 [1#8, 0#8, 0#8, 0#8, 0#8, 0#8, 0#8, 0#8]))) =
    "00000084 00000000000000000000000000000001 00000000000000000000000000000000".toList
end

