-- ==== Sys2Proof/Laws/Decode.lean ====
section
/-! SUPPORT. The fields of the command word, and what the decoder can answer, said once. -/

namespace Sys2Proof

@[simp] theorem op_ofFields (l : BitVec 5) (o : BitVec 4) : CommandWord.op (CommandWord.ofFields l o) = o := by
  simp only [CommandWord.op, CommandWord.ofFields]
  ext i hi
  simp
  grind

@[simp] theorem len_ofFields (l : BitVec 5) (o : BitVec 4) : CommandWord.len (CommandWord.ofFields l o) = l := by
  simp only [CommandWord.len, CommandWord.ofFields]
  ext i hi
  simp
  grind

@[simp] theorem rsv_ofFields (l : BitVec 5) (o : BitVec 4) : CommandWord.rsv (CommandWord.ofFields l o) = 0#23 := by
  simp only [CommandWord.rsv, CommandWord.ofFields]
  ext i hi
  simp
  grind

/-- A command word is its three fields (R32). -/
theorem commandWord_eq_fields (cw : CommandWord) :
    cw = (CommandWord.rsv cw ++ CommandWord.len cw) ++ CommandWord.op cw := by
  simp only [CommandWord.rsv, CommandWord.len, CommandWord.op]
  ext i hi
  simp
  grind

/-- With its reserved bits clear, a command word is given by length and opcode. -/
theorem commandWord_eq_ofFields {cw : CommandWord} (h : CommandWord.rsv cw = 0#23) :
    cw = CommandWord.ofFields (CommandWord.len cw) (CommandWord.op cw) := by
  conv_lhs => rw [commandWord_eq_fields cw, h]
  rfl

@[simp] theorem lo_setWidth (a : Half) : Lane.lo (a.setWidth 128) = a := by
  simp only [Lane.lo]
  ext i hi
  simp
  grind

/-- A lane is its two halves. -/
theorem lane_eq_halves (v : Lane) : v = Lane.hi v ++ Lane.lo v := by
  simp only [Lane.hi, Lane.lo]
  ext i hi
  simp
  grind

@[simp] theorem ofBits_bits (o : Opcode) : Opcode.ofBits o.bits = some o := by cases o <;> rfl

/-- The opcode map is read back only from its own codes (R33). -/
theorem ofBits_eq_some {b : BitVec 4} {o : Opcode} (h : Opcode.ofBits b = some o) : b = o.bits := by
  revert b
  cases o <;> decide

/-- The codes 0x0 and 0x7 to 0xF are the reserved ones (R33). -/
theorem ofBits_eq_none {b : BitVec 4} : Opcode.ofBits b = none ↔ b = 0#4 ∨ 7 ≤ b.toNat := by
  revert b
  decide

@[simp] theorem opcode_instr (op : Opcode) (f : Request) : (op.instr f).opcode = op := by cases op <;> rfl

/-- A word with clear reserved bits, an assigned opcode and no length where none belongs is a command (R36, R37). -/
theorem decode_of_fields {cw : CommandWord} {op : Opcode} (opa opb : Lane) (hr : CommandWord.rsv cw = 0#23)
    (ho : CommandWord.op cw = op.bits) (hl : op = .pvAbsorb ∨ CommandWord.len cw = 0#5) :
    decode ⟨cw, opa, opb⟩ = .ok (op.instr ⟨cw, opa, opb⟩) := by
  have hl' : ¬ (op ≠ .pvAbsorb ∧ CommandWord.len cw ≠ 0#5) := by
    rcases hl with hl | hl <;> simp [hl]
  simp [decode, hr, ho, hl']

/-- A word with a reserved bit set is rejected, whatever the lanes hold (R36). -/
theorem decode_of_rsv {cw : CommandWord} (opa opb : Lane) (hr : CommandWord.rsv cw ≠ 0#23) :
    decode ⟨cw, opa, opb⟩ = .error .reservedBits := by
  simp [decode, hr]

/-- A word with a length in a command that has none is rejected (R36). -/
theorem decode_of_len {cw : CommandWord} {op : Opcode} (opa opb : Lane) (ho : CommandWord.op cw = op.bits) (hop : op ≠ .pvAbsorb)
    (hl : CommandWord.len cw ≠ 0#5) : ∃ e, decode ⟨cw, opa, opb⟩ = .error e := by
  by_cases hr : CommandWord.rsv cw = 0#23
  · exact ⟨.lengthNotZero, by simp [decode, hr, ho, hop, hl]⟩
  · exact ⟨_, decode_of_rsv opa opb hr⟩

/-- What the decoder knows of a frame it accepts (R37). -/
theorem decode_eq_ok {f : Request} {i : Instr} (h : decode f = .ok i) :
    CommandWord.rsv f.cw = 0#23 ∧ CommandWord.op f.cw = i.opcode.bits ∧ CommandWord.len f.cw = i.lenField ∧
      i = i.opcode.instr f := by
  unfold decode at h
  split at h
  · cases h
  · rename_i hr
    split at h
    · cases h
    · rename_i op ho
      split at h
      · cases h
      · rename_i hl
        injection h with h
        subst h
        refine ⟨by simpa using hr, by simpa using ofBits_eq_some ho, ?_, by simp⟩
        cases op <;> simp_all [Opcode.instr, Instr.lenField]

/-- What the decoder knows of a frame it rejects (R36). -/
theorem decode_eq_error {f : Request} {e : DecodeError} (h : decode f = .error e) :
    CommandWord.rsv f.cw ≠ 0#23 ∨ (CommandWord.op f.cw = 0#4 ∨ 7 ≤ (CommandWord.op f.cw).toNat) ∨
      (CommandWord.op f.cw ≠ Opcode.bits .pvAbsorb ∧ CommandWord.len f.cw ≠ 0#5) := by
  unfold decode at h
  split at h
  · rename_i hr; exact .inl hr
  · split at h
    · rename_i ho; exact .inr (.inl (ofBits_eq_none.mp ho))
    · rename_i op ho
      split at h
      · rename_i hl
        refine .inr (.inr ⟨?_, hl.2⟩)
        rw [ofBits_eq_some ho]
        have := hl.1
        cases op <;> first | decide | exact absurd rfl this
      · cases h

end Sys2Proof
end

