-- ==== Sys2Proof/Laws/Arith.lean ====
section
/-! SUPPORT. The recursions of the arithmetic, unfolded once, and the laws of one loop that the products inherit. -/

namespace Sys2Proof.Machine

@[simp] theorem clmulUpTo_zero (a b : Half) : clmulUpTo a b 0 = 0#128 := rfl

theorem clmulUpTo_succ (a b : Half) (i : Nat) :
    clmulUpTo a b (i + 1) = clmulUpTo a b i ^^^ (if b.getLsbD i then a.setWidth 128 <<< i else 0#128) := by
  simp only [clmulUpTo]
  split <;> simp

/-- The loop adds nothing for a zero first operand. -/
theorem clmulUpTo_zero_left (b : Half) (n : Nat) : clmulUpTo 0#64 b n = 0#128 := by
  induction n with
  | zero => rfl
  | succ n ih => simp [clmulUpTo_succ, ih]

/-- The loop adds nothing for a zero second operand. -/
theorem clmulUpTo_zero_right (a : Half) (n : Nat) : clmulUpTo a 0#64 n = 0#128 := by
  induction n with
  | zero => rfl
  | succ n ih => simp [clmulUpTo_succ, ih]

/-- The loop is linear in its first operand. -/
theorem clmulUpTo_xor_left (a c b : Half) (n : Nat) :
    clmulUpTo (a ^^^ c) b n = clmulUpTo a b n ^^^ clmulUpTo c b n := by
  induction n with
  | zero => simp
  | succ n ih =>
    simp only [clmulUpTo_succ, ih]
    split
    · simp only [BitVec.setWidth_xor, BitVec.shiftLeft_xor_distrib]
      ac_rfl
    · simp

/-- The loop is linear in its second operand. -/
theorem clmulUpTo_xor_right (a b c : Half) (n : Nat) :
    clmulUpTo a (b ^^^ c) n = clmulUpTo a b n ^^^ clmulUpTo a c n := by
  induction n with
  | zero => simp
  | succ n ih =>
    simp only [clmulUpTo_succ, ih, BitVec.getLsbD_xor]
    cases b.getLsbD n <;> cases c.getLsbD n <;> simp <;> first | ac_rfl | skip
    rw [show clmulUpTo a b n ^^^ a.setWidth 128 <<< n ^^^ (clmulUpTo a c n ^^^ a.setWidth 128 <<< n) =
      clmulUpTo a b n ^^^ clmulUpTo a c n ^^^ (a.setWidth 128 <<< n ^^^ a.setWidth 128 <<< n) by ac_rfl]
    simp

theorem polymulUpTo_succ (u v i : Nat) :
    polymulUpTo u v (i + 1) = polymulUpTo u v i ^^^ (if v.testBit i then u <<< i else 0) := by
  simp only [polymulUpTo]
  split <;> simp

theorem absorbChunks_cons (k acc x : Lane) (xs : List Lane) :
    absorbChunks k acc (x :: xs) = absorbChunks k (gfmul (acc ^^^ x) k) xs := rfl

theorem absorbChunks_append (k acc : Lane) (xs ys : List Lane) :
    absorbChunks k acc (xs ++ ys) = absorbChunks k (absorbChunks k acc xs) ys := by
  simp [absorbChunks]

/-- The or over the low bits is false exactly when each of them is. -/
theorem orReduceUpTo_eq_false (v : Lane) (n : Nat) : orReduceUpTo v n = false ↔ ∀ i < n, v.getLsbD i = false := by
  induction n with
  | zero => simp [orReduceUpTo]
  | succ n ih =>
    simp only [orReduceUpTo, Bool.or_eq_false_iff, ih]
    constructor
    · rintro ⟨hlow, hlast⟩ i hi
      rcases Nat.lt_succ_iff_lt_or_eq.mp hi with h | rfl
      · exact hlow i h
      · exact hlast
    · exact fun h => ⟨fun i hi => h i (by omega), h n (by omega)⟩

end Sys2Proof.Machine
end

