-- ==== Sys2Proof/Laws/State.lean ====
section
/-! SUPPORT. One lemma per field per update of the state, so that no later proof unfolds a record update. -/

namespace Sys2Proof.Machine

variable (s : State) (v : Lane) (b : Bool) (is : List HostInput) (st : Status) (f : Request)

@[simp] theorem setKey_key : (s.setKey v).key = v := rfl
@[simp] theorem setKey_acc : (s.setKey v).acc = s.acc := rfl
@[simp] theorem setKey_kv : (s.setKey v).kv = s.kv := rfl
@[simp] theorem setKey_inputs : (s.setKey v).inputs = s.inputs := rfl
@[simp] theorem setKey_responses : (s.setKey v).responses = s.responses := rfl

@[simp] theorem setAcc_key : (s.setAcc v).key = s.key := rfl
@[simp] theorem setAcc_acc : (s.setAcc v).acc = v := rfl
@[simp] theorem setAcc_kv : (s.setAcc v).kv = s.kv := rfl
@[simp] theorem setAcc_inputs : (s.setAcc v).inputs = s.inputs := rfl
@[simp] theorem setAcc_responses : (s.setAcc v).responses = s.responses := rfl

@[simp] theorem setKv_key : (s.setKv b).key = s.key := rfl
@[simp] theorem setKv_acc : (s.setKv b).acc = s.acc := rfl
@[simp] theorem setKv_kv : (s.setKv b).kv = b := rfl
@[simp] theorem setKv_inputs : (s.setKv b).inputs = s.inputs := rfl
@[simp] theorem setKv_responses : (s.setKv b).responses = s.responses := rfl

@[simp] theorem setInputs_key : (s.setInputs is).key = s.key := rfl
@[simp] theorem setInputs_acc : (s.setInputs is).acc = s.acc := rfl
@[simp] theorem setInputs_kv : (s.setInputs is).kv = s.kv := rfl
@[simp] theorem setInputs_inputs : (s.setInputs is).inputs = is := rfl
@[simp] theorem setInputs_responses : (s.setInputs is).responses = s.responses := rfl

@[simp] theorem respond_key : (s.respond st v).key = s.key := rfl
@[simp] theorem respond_acc : (s.respond st v).acc = s.acc := rfl
@[simp] theorem respond_kv : (s.respond st v).kv = s.kv := rfl
@[simp] theorem respond_inputs : (s.respond st v).inputs = s.inputs := rfl
@[simp] theorem respond_responses : (s.respond st v).responses = s.responses ++ [⟨st, v⟩] := rfl

@[simp] theorem hardReset_key : s.hardReset.key = 0#128 := rfl
@[simp] theorem hardReset_acc : s.hardReset.acc = 0#128 := rfl
@[simp] theorem hardReset_kv : s.hardReset.kv = false := rfl
@[simp] theorem hardReset_inputs : s.hardReset.inputs = s.inputs := rfl
@[simp] theorem hardReset_responses : s.hardReset.responses = s.responses := rfl

@[simp] theorem presenting_key : (s.presenting f is).key = s.key := rfl
@[simp] theorem presenting_acc : (s.presenting f is).acc = s.acc := rfl
@[simp] theorem presenting_kv : (s.presenting f is).kv = s.kv := rfl
@[simp] theorem presenting_inputs : (s.presenting f is).inputs = .request f :: is := rfl
@[simp] theorem presenting_responses : (s.presenting f is).responses = s.responses := rfl

@[simp] theorem setInputs_presenting (is' : List HostInput) : (s.presenting f is).setInputs is' = s.setInputs is' := rfl

/-- Two states are equal when their five fields are. -/
theorem State.eq_of_fields {s t : State} (hk : s.key = t.key) (ha : s.acc = t.acc) (hv : s.kv = t.kv)
    (hi : s.inputs = t.inputs) (hr : s.responses = t.responses) : s = t := by
  cases s; cases t; simp_all

end Sys2Proof.Machine
end

