-- ==== Sys2Proof/Laws/Ops.lean ====
section
/-! SUPPORT. What each shared operation and each meaning can do, said once; later proofs cite these and do not unfold the meanings. -/

namespace Sys2Proof.Machine

/-- A command that succeeds only adds its response. -/
theorem succeed_next {res : Lane} {s t : State} (h : succeed res s = .next t) : t = s.respond .ok res := by
  simpa [succeed] using h.symm

/-- A command that ends in an error only adds its response, and the result is zero. -/
theorem raise_next {e : ErrorCode} {s t : State} (h : raise e s = .next t) : t = s.respond (.error e) 0#128 := by
  simpa [raise] using h.symm

theorem requireKey_of_kv {s : State} {o : Out} (h : s.kv = true) : requireKey s o = o := by simp [requireKey, h]

theorem requireKey_of_no_kv {s : State} {o : Out} (h : s.kv = false) : requireKey s o = raise .errNoKey s := by
  simp [requireKey, h]

/-- Whichever test fired, a reserved word is the same error. -/
@[simp] theorem decodeErrorCode_eq (e : DecodeError) : decodeErrorCode e = .errIllegal := by cases e <;> rfl

/-- The answer of a command: its status, result and the registers it leaves, as a function of the registers it finds. -/
structure Effect where
  key : Lane
  acc : Lane
  kv : Bool
  st : Status
  res : Lane
deriving DecidableEq, Repr

/-- The effect of an error. -/
def Effect.error (e : ErrorCode) (key acc : Lane) (kv : Bool) : Effect := ⟨key, acc, kv, .error e, 0#128⟩

/-- The effect of each command on `KEY`, `ACC`, `KV` (R18). -/
def effect (key acc : Lane) (kv : Bool) : Instr → Effect
  | .clmul a b => ⟨key, acc, kv, .ok, clmul64 a b⟩
  | .pvKey k => ⟨k, 0#128, true, .ok, 0#128⟩
  | .pvReset => ⟨key, 0#128, kv, .ok, 0#128⟩
  | .pvAbsorb n d =>
    if n.toNat > 16 then .error .errLen key acc kv
    else if kv = false then .error .errNoKey key acc kv
    else if n = 0#5 then ⟨key, acc, kv, .ok, 0#128⟩
    else ⟨key, gfmul (acc ^^^ paddedChunk n d) key, kv, .ok, 0#128⟩
  | .pvRead => if kv = false then .error .errNoKey key acc kv else ⟨key, acc, kv, .ok, acc⟩
  | .tagEq x y => ⟨key, acc, kv, .ok, (equalBit x y).setWidth 128⟩

/-- A state after an effect: the registers it leaves, and its response added. -/
def State.after (s : State) (e : Effect) : State :=
  { s with key := e.key, acc := e.acc, kv := e.kv, responses := s.responses ++ [⟨e.st, e.res⟩] }

@[simp] theorem after_key (s : State) (e : Effect) : (s.after e).key = e.key := rfl
@[simp] theorem after_acc (s : State) (e : Effect) : (s.after e).acc = e.acc := rfl
@[simp] theorem after_kv (s : State) (e : Effect) : (s.after e).kv = e.kv := rfl
@[simp] theorem after_inputs (s : State) (e : Effect) : (s.after e).inputs = s.inputs := rfl
@[simp] theorem after_responses (s : State) (e : Effect) : (s.after e).responses = s.responses ++ [⟨e.st, e.res⟩] := rfl

/-- Everything a command can do: a next state, given by its effect on the three registers. -/
theorem exec_eq_after (i : Instr) (s : State) : exec i s = .next (s.after (effect s.key s.acc s.kv i)) := by
  cases i with
  | clmul a b => rfl
  | pvKey k => rfl
  | pvReset => rfl
  | pvAbsorb n d =>
    obtain ⟨key, acc, kv, inputs, responses⟩ := s
    simp only [exec, execPvAbsorb, effect]
    split
    · rfl
    · cases kv
      · rfl
      · simp only [requireKey_of_kv, Bool.true_eq_false, if_false]
        split <;> rfl
  | pvRead =>
    obtain ⟨key, acc, kv, inputs, responses⟩ := s
    cases kv <;> rfl
  | tagEq x y => rfl

/-- The effect of a request frame: that of its command, or `ERR_ILLEGAL`. -/
def frameEffect (key acc : Lane) (kv : Bool) (f : Request) : Effect :=
  match decode f with
  | .ok i => effect key acc kv i
  | .error _ => .error .errIllegal key acc kv

/-- Everything a step can do with a request at the head of the host's list. -/
theorem step_presenting (s : State) (f : Request) (rest : List HostInput) :
    step (s.presenting f rest) = .next ((s.setInputs rest).after (frameEffect s.key s.acc s.kv f)) := by
  simp only [step, presenting_inputs, setInputs_presenting, runRequest, frameEffect]
  cases decode f with
  | ok i => exact exec_eq_after i _
  | error e => simp only [decodeErrorCode_eq]; rfl

/-- A state is the one that presents its first input. -/
theorem eq_presenting {s : State} {f : Request} {rest : List HostInput} (h : s.inputs = .request f :: rest) :
    s = s.presenting f rest := State.eq_of_fields rfl rfl rfl h rfl

/-- Everything one step can do: wait, run the request at the head of the host's list, or reset. -/
theorem step_cases (s : State) :
    (s.inputs = [] ∧ step s = .next s) ∨
    (∃ f rest, s.inputs = .request f :: rest ∧
      step s = .next ((s.setInputs rest).after (frameEffect s.key s.acc s.kv f))) ∨
    (∃ p rest, s.inputs = .hardReset p :: rest ∧ step s = .next (s.setInputs rest).hardReset) := by
  rcases h : s.inputs with _ | ⟨_ | _, rest⟩
  · exact .inl ⟨rfl, by simp [step, h]⟩
  · refine .inr (.inl ⟨_, _, rfl, ?_⟩)
    rw [eq_presenting h]; exact step_presenting ..
  · exact .inr (.inr ⟨_, _, rfl, by simp [step, h]⟩)

end Sys2Proof.Machine
end

