-- ==== Sys2Proof/Laws/Run.lean ====
section
/-! SUPPORT. Running several steps: one step first, then the rest; and what the host's next command is. -/

namespace Sys2Proof.Machine

theorem run_zero (s : State) : Host.Core.run Sys2Proof.core 0 s = .next s := rfl

/-- One step, then the others. -/
theorem run_succ {s t : State} (n : Nat) (h : step s = .next t) :
    Host.Core.run Sys2Proof.core (n + 1) s = Host.Core.run Sys2Proof.core n t := by
  have h' : Sys2Proof.core.step s = .next t := h
  simp only [Host.Core.run, h']

@[simp] theorem issue_nil (s : State) : s.issue [] = s := rfl

/-- The first command the host issues is the next request. -/
theorem issue_cons (s : State) (i : Instr) (is : List Instr) :
    s.issue (i :: is) = s.presenting (encode i) (s.issue is).inputs := rfl

end Sys2Proof.Machine
end

