-- ==== Sys2Proof/Laws/HostAead.lean ====
section
/-! SUPPORT. What performing a list of commands can answer, said once. -/

namespace Sys2Proof.Machine

/-- A run that ends in an `OK` response is performed, and gives that response and that state. -/
theorem perform_of_run {is : List Instr} {s t : State} {rs : List Response} {res : Lane}
    (hrun : Host.Core.run Sys2Proof.core is.length (s.issue is) = .next t) (hlast : t.responses = rs ++ [⟨.ok, res⟩]) :
    perform is s = some (t, ⟨.ok, res⟩) := by
  simp [perform, hrun, hlast]

/-- What was performed is a run to its end whose last response is `OK`. -/
theorem run_of_perform {is : List Instr} {s t : State} {r : Response} (h : perform is s = some (t, r)) :
    Host.Core.run Sys2Proof.core is.length (s.issue is) = .next t ∧ t.responses.getLast? = some r ∧ r.st = .ok := by
  unfold perform at h
  split at h
  · rename_i u hu
    obtain ⟨q, hq, hok⟩ := Option.bind_eq_some_iff.mp h
    split at hok
    · injection hok with hok
      injection hok with h1 h2
      subst h1 h2
      exact ⟨hu, hq, ‹_›⟩
    · cases hok
  · cases h
  · cases h

/-- A buffer split where its trailing tag begins. -/
theorem split_trailing {message tag : List Byte} (h : tag.length = Config.chunkBytes) :
    (message ++ tag).take ((message ++ tag).length - Config.chunkBytes) = message ∧
      (message ++ tag).drop ((message ++ tag).length - Config.chunkBytes) = tag := by
  have hlen : (message ++ tag).length - Config.chunkBytes = message.length := by simp [h]
  rw [hlen]
  exact ⟨List.take_left, List.drop_left⟩

end Sys2Proof.Machine
end

