-- ==== Sys2Proof/Laws/PerInstr.lean ====
section
/-! SUPPORT. Facts about each command as syntax, one lemma per constructor. -/

/-- The fields of the encoded command word: reserved bits clear, an assigned opcode, and a length only in `PV.ABSORB` (R32, R33, R34). -/
def Sys2Proof.Laws.EncodedFields.Statement (i : Sys2Proof.Instr) : Prop :=
  Sys2Proof.CommandWord.rsv (Sys2Proof.encode i).cw = 0#23 ∧
  Sys2Proof.CommandWord.op (Sys2Proof.encode i).cw = i.opcode.bits ∧
  (i.opcode ≠ .pvAbsorb → Sys2Proof.CommandWord.len (Sys2Proof.encode i).cw = 0#5)

namespace Sys2Proof.Laws.EncodedFields

theorem clmul (a b : Half) : Statement (.clmul a b) := by simp [Statement, encode, Instr.lenField]

theorem pvKey (k : Lane) : Statement (.pvKey k) := by simp [Statement, encode, Instr.lenField]

theorem pvReset : Statement .pvReset := by simp [Statement, encode, Instr.lenField]

theorem pvAbsorb (n : BitVec 5) (d : Lane) : Statement (.pvAbsorb n d) := by simp [Statement, encode, Instr.opcode]

theorem pvRead : Statement .pvRead := by simp [Statement, encode, Instr.lenField]

theorem tagEq (x y : Lane) : Statement (.tagEq x y) := by simp [Statement, encode, Instr.lenField]

end Sys2Proof.Laws.EncodedFields
end

