-- ==== Sys2Proof/Tests/Slice0.lean ====
section
/-! SUPPORT. Tests with values from spec/ (30_encoding.md, 41_polyval.md R72, 95_test_vectors.md), the smoke test of `wellFormed`, and for
each obligation with hypotheses a witness that meets them. -/

namespace Sys2Proof.Tests

open Sys2Proof.Machine

/-- A state with a key loaded, nothing issued and nothing answered. -/
def keyed (key acc : Lane) : State := { State.reset with key := key, acc := acc, kv := true }

/-- The next state of a step, if there is one. -/
def nextOf : Out → Option State
  | .next t => some t
  | .fault _ => none
  | .refused _ => none

/-- The last response of the next state. -/
def answerOf (o : Out) : Option Response := (nextOf o).bind (fun t => t.responses.getLast?)

/-- K4 of 95_test_vectors.md section 5. -/
def keyK4 : Lane := 0x7773da7a98c6dbc51a9494962760b3d9#128

/-! ## WellFormed (R34) -/

theorem test_wellFormed_length_17_refused : (Instr.pvAbsorb 17#5 0#128).wellFormed = false := by decide
theorem test_wellFormed_length_16_accepted : (Instr.pvAbsorb 16#5 0#128).wellFormed = true := by decide

/-! ## Decoding: words written out from R32 and R33 -/

theorem test_decode_clmul :
    decode ⟨0b00000000000000000000000000000001#32, 0xffffffffffffffff0000000000000003#128, 5#128⟩ = .ok (.clmul 3#64 5#64) := by rfl
theorem test_decode_pvKey : decode ⟨0b00000000000000000000000000000010#32, 9#128, 5#128⟩ = .ok (.pvKey 9#128) := by rfl
theorem test_decode_pvReset : decode ⟨0b00000000000000000000000000000011#32, 9#128, 5#128⟩ = .ok .pvReset := by rfl
theorem test_decode_pvAbsorb_15 : decode ⟨0b00000000000000000000000011110100#32, 9#128, 5#128⟩ = .ok (.pvAbsorb 15#5 9#128) := by rfl
theorem test_decode_pvRead : decode ⟨0b00000000000000000000000000000101#32, 9#128, 5#128⟩ = .ok .pvRead := by rfl
theorem test_decode_tagEq : decode ⟨0b00000000000000000000000000000110#32, 9#128, 5#128⟩ = .ok (.tagEq 9#128 5#128) := by rfl
theorem test_decode_opcode_7 : decode ⟨7#32, 0#128, 0#128⟩ = .error .reservedOpcode := by rfl
theorem test_decode_bit_31 : decode ⟨0x80000144#32, 0#128, 0#128⟩ = .error .reservedBits := by rfl
theorem test_encode_pvAbsorb_8 : encode (.pvAbsorb 8#5 1#128) = ⟨0x00000084#32, 1#128, 0#128⟩ := by decide
theorem test_decodeTableWord : decodeTableWord 32 0x104 = some (.pvAbsorb 16#5 0#128) := by decide
theorem test_frame_number : Request.ofNat (Request.toNat ⟨6#32, 1#128, 2#128⟩) = ⟨6#32, 1#128, 2#128⟩ := by decide
theorem test_step_runs_fetchWord : step (State.reset.withFetchWord 32 2) = exec (.pvKey 0#128) State.reset := by rfl

/-! ## CLMUL (95 section 3) -/

theorem test_clmul_general :
    answerOf (exec (.clmul 0x0123456789abcdef#64 0xfedcba9876543210#64) State.reset) =
      some ⟨.ok, 0x00e038d8688850b040a0789828c810f0#128⟩ := by decide
theorem test_clmul_crosses_halves :
    answerOf (exec (.clmul 0x8000000000000000#64 2#64) State.reset) = some ⟨.ok, 0x00000000000000010000000000000000#128⟩ := by decide

/-! ## The accumulator (41_polyval.md R72, 95 sections 4 and 5) -/

theorem test_pvKey_clears_acc : (nextOf (exec (.pvKey 9#128) (keyed keyK4 7#128))).map (fun t => (t.key, t.acc, t.kv)) =
    some (9#128, 0#128, true) := by decide
theorem test_pvReset_keeps_key : (nextOf (exec .pvReset (keyed keyK4 7#128))).map (fun t => (t.key, t.acc, t.kv)) =
    some (keyK4, 0#128, true) := by decide
theorem test_pvAbsorb_masks_lane :
    (nextOf (exec (.pvAbsorb 15#5 0xffffffffffffffffffffffffffffffff#128) (keyed keyK4 0#128))).map (fun t => t.acc) =
      some 0x7c77336d54eb39698a33c23cfd20dd0d#128 := by decide
theorem test_pvAbsorb_second_block :
    (nextOf (exec (.pvAbsorb 16#5 0x00000000000000400000000000000000#128) (keyed keyK4 0x069c266d87a58d615b4ed2d1914607a4#128))).map
      (fun t => t.acc) = some 0x74ec5cdca7902a9de4c5620974b793eb#128 := by decide
theorem test_pvRead_returns_acc : answerOf (exec .pvRead (keyed keyK4 0xab58e8b8f611c39cb833fcaf450162ad#128)) =
    some ⟨.ok, 0xab58e8b8f611c39cb833fcaf450162ad#128⟩ := by decide
theorem test_pvRead_without_key : answerOf (exec .pvRead State.reset) = some ⟨.error .errNoKey, 0#128⟩ := by decide
theorem test_gfmul_one_by_one : gfmul 1#128 1#128 = 0x92040000000000000000000000000001#128 := by decide
theorem test_polymod_of_polymul : polymod (polymul (polymul 1 1) Config.xInv) = 0x92040000000000000000000000000001#128 := by decide
theorem test_partials_second_block : (partials 0x069c266d87a58d215b4ed2d1914607a4#128 keyK4).zLo = 0xcf3f8b1520e62a9b117926ff754057c4#128 ∧
    (partials 0x069c266d87a58d215b4ed2d1914607a4#128 keyK4).zHi = 0x010d8f90757d53b88f7c6c7b98ed7a93#128 := by decide

/-! ## TAG.EQ (95 section 6) -/

theorem test_tagEq_equal : answerOf (exec (.tagEq 0x25de56ca9e439eb45b70253fd8e220dc#128 0x25de56ca9e439eb45b70253fd8e220dc#128) State.reset) =
    some ⟨.ok, 1#128⟩ := by decide +kernel
theorem test_tagEq_last_bit : answerOf (exec (.tagEq 0x25de56ca9e439eb45b70253fd8e220dc#128 0xa5de56ca9e439eb45b70253fd8e220dc#128) State.reset) =
    some ⟨.ok, 0#128⟩ := by decide +kernel

/-! ## Errors and reset (95 section 7, R105) -/

theorem test_illegal_wins_over_length : answerOf (step (State.reset.presenting ⟨0x80000144#32, 0#128, 0#128⟩ [])) =
    some ⟨.error .errIllegal, 0#128⟩ := by decide
theorem test_length_wins_over_key : answerOf (step (State.reset.presenting ⟨0x00000144#32, 0#128, 0#128⟩ [])) =
    some ⟨.error .errLen, 0#128⟩ := by decide
theorem test_hardReset_abandons : step { keyed keyK4 7#128 with inputs := [.hardReset (some (encode .pvRead))] } = .next State.reset := by rfl

/-! ## Host sequences and listings -/

theorem test_lenBlk : encode (pvLenBlk 0#64 64#64) = ⟨0x00000104#32, 0x00000000000000400000000000000000#128, 0#128⟩ := by decide
theorem test_absorbM_17 : pvAbsorbM (List.replicate 17 1#8) =
    [.pvAbsorb 16#5 0x01010101010101010101010101010101#128, .pvAbsorb 1#5 1#128] := by decide
theorem test_maskBytes_above_range : maskBytes 17 = BitVec.allOnes 128 ∧ byteAt (BitVec.allOnes 128) 16 = 0#8 := by decide
theorem test_le128_drops_17th_byte : le128 (List.replicate 16 1#8 ++ [9#8]) = le128 (List.replicate 16 1#8) := by decide
theorem test_authenticated : authenticated ⟨.ok, 1#128⟩ = true := by decide
theorem test_listing_clmul : listing (.clmul 3#64 3#64) = "CLMUL 0x0000000000000003, 0x0000000000000003".toList := by decide
theorem test_responseListing : responseListing ⟨.error .errNoKey, 0#128⟩ = "-> ERR_NOKEY".toList := by decide

/-- The one value of the block cipher that Vector 4 needs (95 section 1.2): the masked accumulator to the tag. -/
def vector4Cipher (x : Lane) : Lane :=
  if x = 0x74ec5cdca7902a9de4c5620974b793e8#128 then 0x4c363a49227c285b813b01f6ff828757#128 else 0#128

/-- The keystream of Vector 4, `b4d839330ac7b786`, which is its ciphertext added to its plaintext. -/
def vector4CounterMode (_tag : Lane) (data : List Byte) : List Byte :=
  List.zipWith (· ^^^ ·) data [0xb4#8, 0xd8#8, 0x39#8, 0x33#8, 0x0a#8, 0xc7#8, 0xb7#8, 0x86#8]

/-- Ciphertext and tag of Vector 4, as the source prints them. -/
def vector4Buffer : List Byte :=
  [0xb5#8, 0xd8#8, 0x39#8, 0x33#8, 0x0a#8, 0xc7#8, 0xb7#8, 0x86#8, 0x57#8, 0x87#8, 0x82#8, 0xff#8, 0xf6#8, 0x01#8, 0x3b#8, 0x81#8,
    0x5b#8, 0x28#8, 0x7c#8, 0x22#8, 0x49#8, 0x3a#8, 0x36#8, 0x4c#8]

theorem test_sivDecrypt_vector4 :
    (sivDecrypt vector4Cipher vector4CounterMode 3#96 [] vector4Buffer (keyed keyK4 7#128)).map (fun o => (o.authentic, o.message)) =
      some (true, [1#8, 0#8, 0#8, 0#8, 0#8, 0#8, 0#8, 0#8]) := by decide +kernel
theorem test_sivDecrypt_tampered_nonce :
    (sivDecrypt vector4Cipher vector4CounterMode 4#96 [] vector4Buffer (keyed keyK4 7#128)).map (fun o => (o.authentic, o.released)) =
      some (false, none) := by decide +kernel
theorem test_streamDecrypt_mismatch_leaves_buffer :
    (streamDecrypt (fun _ _ => 0#128) (fun _ => []) [] vector4Buffer State.reset).map (fun o => (o.authentic, o.message)) =
      some (false, vector4Buffer.take 8) := by decide +kernel
theorem test_keyPieces_of_16_byte_key : (keyPieces id 3#96 16).length = 4 ∧ derivationBlock 3#96 1 = 0x0000000000000000000000300000001#128 := by
  decide

/-! ## Witnesses: for each obligation with hypotheses, data that meet them together -/

theorem witness_EncodeDecodeKeepsUsedBits :
    decode ⟨0x1#32, 0xffffffffffffffff0000000000000003#128, 3#128⟩ = .ok (.clmul 3#64 3#64) := by rfl
theorem witness_DecodeAgreesWithOpcodeTable :
    ⟨.pvAbsorb, 0x4#32, 0xFFFFFE0F#32⟩ ∈ opcodeTable ∧ OpcodeRow.covers ⟨.pvAbsorb, 0x4#32, 0xFFFFFE0F#32⟩ 0x1F4#32 = true := by decide
theorem witness_OperandLanes_clmul :
    decode ⟨0x1#32, 0xffffffffffffffff0000000000000003#128, 0x123456789abcdef00000000000000003#128⟩ = .ok (.clmul 3#64 3#64) ∧
      sameOperands .clmul 0#5 ⟨0x1#32, 0xffffffffffffffff0000000000000003#128, 0x123456789abcdef00000000000000003#128⟩
        ⟨0x1#32, 3#128, 3#128⟩ := ⟨rfl, rfl, rfl⟩
theorem witness_OperandLanes_pvAbsorb :
    decode ⟨0xF4#32, BitVec.allOnes 128, 0#128⟩ = .ok (.pvAbsorb 15#5 (BitVec.allOnes 128)) ∧
      sameOperands .pvAbsorb 15#5 ⟨0xF4#32, BitVec.allOnes 128, 0#128⟩ ⟨0xF4#32, 0x00ffffffffffffffffffffffffffffff#128, 7#128⟩ :=
  ⟨rfl, by simp only [sameOperands]; decide⟩
theorem witness_StepRunsDecodedCommand :
    (State.reset.presenting ⟨0x3#32, 0#128, 0#128⟩ []).inputs = [.request ⟨0x3#32, 0#128, 0#128⟩] ∧
      decode ⟨0x3#32, 0#128, 0#128⟩ = .ok .pvReset ∧ decode ⟨0x0#32, 0#128, 0#128⟩ = .error .reservedOpcode := ⟨rfl, rfl, rfl⟩
theorem witness_ReservedWordsAreIllegal :
    (0x200#32).extractLsb' 9 23 ≠ 0#23 ∧ (0x0#32).extractLsb' 0 4 = 0x0#4 ∧ 7 ≤ ((0x7#32).extractLsb' 0 4).toNat ∧
      (0x15#32).extractLsb' 0 4 = 0x5#4 ∧ (0x15#32).extractLsb' 4 5 ≠ 0#5 ∧
      (0x1F4#32).extractLsb' 9 23 = 0#23 ∧ (0x1F4#32).extractLsb' 0 4 = 4#4 := by decide
theorem witness_LengthErrorExactlyAboveSixteen :
    (nextOf (exec (.pvAbsorb 17#5 0#128) State.reset)).map (fun t => t.responses) = some (State.reset.responses ++ [⟨.error .errLen, 0#128⟩]) ∧
      17 ≤ (17#5).toNat := by decide
theorem witness_NoKeyErrorExactlyWithoutKey :
    State.reset.kv = false ∧ (16#5).toNat ≤ 16 ∧
      (nextOf (exec .pvRead State.reset)).map (fun t => t.responses) = some (State.reset.responses ++ [⟨.error .errNoKey, 0#128⟩]) := by decide
theorem witness_ErrorHasNoEffect :
    (nextOf (step (State.reset.presenting ⟨0#32, 0#128, 0#128⟩ []))).map (fun t => t.responses) =
      some (State.reset.responses ++ [⟨.error .errIllegal, 0#128⟩]) := by decide
theorem witness_ErrorsDoNotStick :
    (nextOf (step (State.reset.presenting ⟨0#32, 0#128, 0#128⟩ [.request ⟨1#32, 3#128, 3#128⟩]))).map (fun t => t.responses) =
        some (State.reset.responses ++ [⟨.error .errIllegal, 0#128⟩]) ∧
      (nextOf (step (State.reset.presenting ⟨1#32, 3#128, 3#128⟩ []))).map (fun t => t.responses) =
        some (State.reset.responses ++ [⟨.ok, 5#128⟩]) := by decide
theorem witness_StatusCodes : 4 ≤ (15#4).toNat := by decide
theorem witness_EveryRequestAnsweredOnce :
    (State.reset.presenting ⟨0#32, 0#128, 0#128⟩ []).inputs = [.request ⟨0#32, 0#128, 0#128⟩] := by decide
theorem witness_IdleStepChangesNothing : State.reset.inputs = [] := by decide
theorem witness_ResultDependsOnRegistersAndFrameOnly :
    (keyed 1#128 2#128).key = { keyed 1#128 2#128 with responses := [⟨.ok, 9#128⟩] }.key ∧
      (keyed 1#128 2#128).responses ≠ { keyed 1#128 2#128 with responses := [⟨.ok, 9#128⟩] }.responses := by decide
theorem witness_OnlyListedCommandsWriteState :
    exec (.pvKey 9#128) State.reset = .next { keyed 9#128 0#128 with responses := [⟨.ok, 0#128⟩] } ∧
      (keyed 9#128 0#128).key ≠ State.reset.key ∧ (keyed 9#128 0#128).kv ≠ State.reset.kv ∧
      (nextOf (exec .pvReset (keyed 9#128 7#128))).map (fun t => t.acc) ≠ some (keyed 9#128 7#128).acc := ⟨rfl, by decide, by decide, by decide⟩
theorem witness_NoResponseDependsOnKey :
    (keyed 1#128 7#128).acc = (keyed 2#128 7#128).acc ∧ (keyed 1#128 7#128).kv = (keyed 2#128 7#128).kv ∧
      (keyed 1#128 7#128).key ≠ (keyed 2#128 7#128).key := by decide
theorem witness_KeyValidFlag :
    { keyed 1#128 7#128 with inputs := [.hardReset none] }.inputs = [.hardReset none] ∧ State.reset.kv = false ∧ (16#5).toNat ≤ 16 := by decide
theorem witness_HardwareReset :
    { keyed 1#128 7#128 with inputs := [.hardReset (some (encode .pvRead))] }.inputs = [.hardReset (some (encode .pvRead))] ∧
      exec (.pvKey 9#128) (keyed 1#128 7#128) = .next { keyed 9#128 0#128 with responses := [⟨.ok, 0#128⟩] } ∧
      (keyed 1#128 7#128).kv = true ∧ (keyed 9#128 0#128).key ≠ (keyed 1#128 7#128).key := ⟨rfl, rfl, rfl, by decide⟩
theorem witness_ResetValuesUnobservable :
    { State.reset with key := 5#128 }.kv = false ∧ { State.reset with key := 5#128 }.inputs = State.reset.inputs ∧
      { State.reset with key := 5#128 }.responses = State.reset.responses ∧ { State.reset with key := 5#128 } ≠ State.reset := by decide
theorem witness_StepKeepsIndistinguishable :
    { State.reset with key := 5#128 }.indistinguishable State.reset ∧ { State.reset with key := 5#128 } ≠ State.reset ∧
      step { State.reset with key := 5#128 } = .next { State.reset with key := 5#128 } ∧ step State.reset = .next State.reset :=
  ⟨⟨rfl, rfl, .inr ⟨rfl, rfl⟩⟩, by decide, rfl, rfl⟩
theorem witness_StepKeepsInvariant :
    (keyed 1#128 2#128).Inv ∧ step (keyed 1#128 2#128) = .next (keyed 1#128 2#128) := ⟨⟨by decide, by decide⟩, rfl⟩
theorem witness_WellFormedCommandsRunWithoutError :
    (keyed 1#128 2#128).kv = true ∧ (keyed 1#128 2#128).errorFree = true ∧
      ∀ i ∈ [Instr.pvAbsorb 16#5 1#128, .pvRead], i.wellFormed = true := by decide
theorem witness_ClmulCommand : (0x11#32).extractLsb' 0 4 = 0x1#4 ∧ (0x11#32).extractLsb' 4 28 ≠ 0#28 := by decide
theorem witness_PvKeyCommand : (0x202#32).extractLsb' 0 4 = 0x2#4 ∧ (0x202#32).extractLsb' 4 28 ≠ 0#28 := by decide
theorem witness_PvResetCommand : (0x13#32).extractLsb' 0 4 = 0x3#4 ∧ (0x13#32).extractLsb' 4 28 ≠ 0#28 ∧
    (nextOf (exec .pvReset State.reset)).isSome = true := by decide
theorem witness_PvAbsorbCommand :
    (keyed 0#128 0#128).kv = true ∧ (keyed 0#128 0#128).acc = 0#128 ∧ (keyed 0#128 0#128).key = 0#128 ∧ State.reset.kv = false ∧
      1 ≤ (1#5).toNat ∧ (16#5).toNat ≤ 16 ∧ 16 < (17#5).toNat ∧ (0x304#32).extractLsb' 0 4 = 0x4#4 ∧
      (0x304#32).extractLsb' 9 23 ≠ 0#23 := by decide
theorem witness_PvReadCommand :
    (keyed 1#128 2#128).kv = true ∧ State.reset.kv = false ∧ (0x15#32).extractLsb' 0 4 = 0x5#4 ∧ (0x15#32).extractLsb' 4 28 ≠ 0#28 ∧
      (nextOf (exec .pvRead (keyed 1#128 2#128))).isSome = true ∧ (nextOf (exec (.pvKey 9#128) State.reset)).isSome = true ∧
      (nextOf (exec .pvReset (keyed 1#128 2#128))).isSome = true := by decide
theorem witness_TagEqCommand : (0x16#32).extractLsb' 0 4 = 0x6#4 ∧ (0x16#32).extractLsb' 4 28 ≠ 0#28 := by decide
theorem witness_TagEqRevealsOneBit : ((1#128 = 2#128) ↔ (3#128 = 0#128)) ∧ ((1#128 = 1#128) ↔ (7#128 = 7#128)) := by decide
theorem witness_LittleEndianLane : (List.replicate 16 0xff#8).length = 16 ∧ 15 < 16 := by decide
theorem witness_ChunkMask : 16 ≤ 16 ∧ 127 < 128 := by decide
theorem witness_ClmulDegree : 1#64 ≠ 0#64 ∧ 0x8000000000000000#64 ≠ 0#64 := by decide
theorem witness_FoldRoundDividesByX64 : 0#64 ≠ 0xC200000000000000#64 := by decide
theorem witness_GfmulHasNoZeroDivisors : gfmul 0#128 5#128 = 0#128 := by decide
theorem witness_AbsorbSequence :
    (keyed 1#128 2#128).kv = true ∧ ∀ c ∈ [(1#5, 1#128), (16#5, 2#128)], 1 ≤ c.1.toNat ∧ c.1.toNat ≤ 16 := ⟨rfl, by simp⟩
theorem witness_AbsorbMAbsorbsPaddedBlocks : (keyed 1#128 2#128).kv = true := by decide
theorem witness_RechunkingOnlyAtBlockBoundaries : (List.replicate 16 1#8).length % 16 = 0 := by decide
theorem witness_LengthTrailer : (List.replicate 16 1#8).length ≤ 2 ^ 36 := by decide
theorem witness_SivSequenceReturnsHash : (keyed 1#128 2#128).kv = true := by decide
theorem witness_SivDecryptHashesThenCompares :
    (keyed 1#128 2#128).kv = true ∧ (List.replicate 16 1#8).length = 16 ∧ (List.replicate 15 1#8).length < 16 ∧ 127 < 128 ∧
      ∀ (t : Lane) (data : List Byte), (fun (_ : Lane) (d : List Byte) => d) t ((fun (_ : Lane) (d : List Byte) => d) t data) = data :=
  ⟨rfl, rfl, by decide, by decide, fun _ _ => rfl⟩
theorem witness_StreamDecryptComparesFirst : (List.replicate 16 1#8).length = 16 ∧ (List.replicate 15 1#8).length < 16 := by decide
theorem witness_EncodedFormIsFaithful : encodedForm ⟨1#32, 2#128, 3#128⟩ = encodedForm ⟨1#32, 2#128, 3#128⟩ := rfl

end Sys2Proof.Tests
end

/-! The state family of statements (10_state.md R13, R17): the registers and the response of a command as functions of what it
finds, and the flag `KV`. -/

section

namespace Sys2Proof.Machine

/-! ## The effect of a command, and `KV` -/

/-- The only next state a command has. -/
theorem exec_next {i : Instr} {s t : State} (h : exec i s = .next t) : t = s.after (effect s.key s.acc s.kv i) := by
  rw [exec_eq_after] at h
  exact (Host.Outcome.next.inj h).symm

/-- An error changes no register, so what is left of it is its response (R96). -/
theorem after_error (s : State) (e : ErrorCode) :
    s.after (.error e s.key s.acc s.kv) = { s with responses := s.responses ++ [⟨.error e, 0#128⟩] } := rfl

/-- `KV` after a command: as before, or set by `PV.KEY`. -/
theorem effect_kv (key acc : Lane) (kv : Bool) (i : Instr) :
    (effect key acc kv i).kv = kv ∨ (i.opcode = .pvKey ∧ (effect key acc kv i).kv = true) := by
  cases i with
  | pvKey k => exact .inr ⟨rfl, rfl⟩
  | pvAbsorb n d => left; simp only [effect]; split_ifs <;> rfl
  | pvRead => left; simp only [effect]; split_ifs <;> rfl
  | clmul a b => exact .inl rfl
  | pvReset => exact .inl rfl
  | tagEq x y => exact .inl rfl

theorem effect_pvAbsorb_of_no_kv (key acc : Lane) {n : BitVec 5} (d : Lane) (hn : n.toNat ≤ 16) :
    effect key acc false (.pvAbsorb n d) = .error .errNoKey key acc false := by
  simp [effect, Nat.not_lt.mpr hn]

theorem effect_pvRead_of_no_kv (key acc : Lane) : effect key acc false .pvRead = .error .errNoKey key acc false := rfl

/-- Without a key a command ends in `ERR_NOKEY`, or answers as it would with one. -/
theorem effect_no_kv_cases (key acc : Lane) (i : Instr) :
    effect key acc false i = .error .errNoKey key acc false ∨
      ((effect key acc false i).st = (effect key acc true i).st ∧ (effect key acc false i).res = (effect key acc true i).res) := by
  cases i with
  | pvAbsorb n d =>
    rcases Nat.lt_or_ge 16 n.toNat with hn | hn
    · exact .inr (by simp [effect, hn, Effect.error])
    · exact .inl (effect_pvAbsorb_of_no_kv key acc d hn)
  | pvRead => exact .inl (effect_pvRead_of_no_kv key acc)
  | clmul a b => exact .inr ⟨rfl, rfl⟩
  | pvKey k => exact .inr ⟨rfl, rfl⟩
  | pvReset => exact .inr ⟨rfl, rfl⟩
  | tagEq x y => exact .inr ⟨rfl, rfl⟩

/-! `PV.ABSORB` and `PV.READ`, the two commands that need a key, without one (R94). -/

theorem exec_pvAbsorb_of_no_kv {s : State} (hs : s.kv = false) {n : BitVec 5} (d : Lane) (hn : n.toNat ≤ 16) :
    exec (.pvAbsorb n d) s = .next { s with responses := s.responses ++ [⟨.error .errNoKey, 0#128⟩] } := by
  rw [exec_eq_after, ← after_error, hs, effect_pvAbsorb_of_no_kv _ _ d hn]

theorem exec_pvRead_of_no_kv {s : State} (hs : s.kv = false) :
    exec .pvRead s = .next { s with responses := s.responses ++ [⟨.error .errNoKey, 0#128⟩] } := by
  rw [exec_eq_after, ← after_error, hs, effect_pvRead_of_no_kv]

/-- What a command without a key answers, against what it would answer with one: the same, or `ERR_NOKEY`. -/
theorem exec_response_of_no_kv (i : Instr) {s : State} (hs : s.kv = false) :
    ∃ (t u : State) (r : Response), exec i s = .next t ∧ exec i { s with kv := true } = .next u ∧
      u.responses = s.responses ++ [r] ∧
        (t.responses = s.responses ++ [r] ∨ t.responses = s.responses ++ [⟨.error .errNoKey, 0#128⟩]) := by
  refine ⟨_, _, _, exec_eq_after i s, exec_eq_after i _, after_responses .., ?_⟩
  rw [after_responses, hs]
  rcases effect_no_kv_cases s.key s.acc i with h | ⟨hst, hres⟩
  · exact .inr (by rw [h]; rfl)
  · exact .inl (by rw [hst, hres])

/-- A hardware reset at the head of the host's list takes effect, whatever command it abandons (R105). -/
theorem step_hardReset {s : State} {p : Option Request} {rest : List HostInput} (h : s.inputs = .hardReset p :: rest) :
    step s = .next (s.setInputs rest).hardReset := by
  simp only [step, h]

/-! ## The statements of the family -/

/-- Settles O17: one step on a presented frame is `frameEffect` of the three registers, whatever else the state holds. -/
theorem resultDependsOnRegistersAndFrameOnly : Obligations.ResultDependsOnRegistersAndFrameOnly := by
  intro s s' f rest rest' hkey hacc hkv
  refine ⟨_, _, _, _, step_presenting s f rest, ?_⟩
  rw [step_presenting, ← hkey, ← hacc, ← hkv]
  rfl

/-- Settles O20: from what a command does to `KV` (`effect_kv`) and what it answers without a key (`effect_no_kv_cases`). -/
theorem keyValidFlag : Obligations.KeyValidFlag := by
  refine ⟨rfl, fun k s => ⟨_, exec_eq_after _ s, rfl⟩, ?_, ?_, ?_, fun i s hs => exec_response_of_no_kv i hs⟩
  · intro i s t h
    rw [exec_next h, after_kv]
    exact effect_kv s.key s.acc s.kv i
  · intro s p rest h
    exact ⟨_, step_hardReset h, hardReset_kv _⟩
  · intro s hs
    exact ⟨fun n d hn => exec_pvAbsorb_of_no_kv hs d hn, exec_pvRead_of_no_kv hs⟩

end Sys2Proof.Machine
end

/-! The memory family of statements (20_memory.md R20, 44_host_sequences.md R81, R83), first part: bytes and lanes. -/

section

namespace Sys2Proof.Machine

/-! ## The little-endian map (R20) -/

/-- Byte i of `le128` is byte i of the string, zero beyond its end (R20, R39). -/
theorem byteAt_le128 (B : List Byte) {i : Nat} (hi : i < 16) : byteAt (le128 B) i = B[i]?.getD 0#8 := by
  induction B generalizing i with
  | nil => simp [le128, byteAt]
  | cons b bs ih =>
    cases i with
    | zero =>
      ext j hj
      simp [le128, byteAt, show j < 128 by omega, hj]
    | succ i =>
      rw [List.getElem?_cons_succ, ← ih (by omega)]
      ext j hj
      have hbit : 8 * (i + 1) + j - 8 = 8 * i + j := by omega
      have habove : b.getLsbD (8 * (i + 1) + j) = false := BitVec.getLsbD_of_ge _ _ (by omega)
      simp [le128, byteAt, hbit, habove, show 8 * (i + 1) + j < 128 by omega, show ¬ 8 * (i + 1) + j < 8 by omega,
        ← BitVec.getLsbD_eq_getElem]

/-- A lane is its sixteen bytes. -/
theorem eq_of_byteAt_eq {u v : Lane} (h : ∀ i < 16, byteAt u i = byteAt v i) : u = v := by
  refine BitVec.eq_of_getLsbD_eq fun j hj => ?_
  have hbyte := congrArg (fun b : Byte => b.getLsbD (j % 8)) (h (j / 8) (by omega))
  simpa [byteAt, show j % 8 < 8 by omega, Nat.div_add_mod] using hbyte

@[simp] theorem length_bytes16 (v : Lane) : (bytes16 v).length = 16 := by simp [bytes16, Config.chunkBytes]

theorem getElem?_bytes16 (v : Lane) {i : Nat} (hi : i < 16) : (bytes16 v)[i]? = some (byteAt v i) := by
  simp [bytes16, Config.chunkBytes, hi]

@[simp] theorem le128_bytes16 (v : Lane) : le128 (bytes16 v) = v :=
  eq_of_byteAt_eq fun i hi => by rw [byteAt_le128 _ hi, getElem?_bytes16 v hi, Option.getD_some]

theorem bytes16_le128 {B : List Byte} (hB : B.length = 16) : bytes16 (le128 B) = B := by
  refine List.ext_getElem? fun i => ?_
  rcases Nat.lt_or_ge i 16 with hi | hi
  · rw [getElem?_bytes16 _ hi, byteAt_le128 B hi, List.getElem?_eq_getElem (hB ▸ hi), Option.getD_some]
  · rw [List.getElem?_eq_none (by simpa using hi), List.getElem?_eq_none (hB ▸ hi)]

/-- Settles O34: byte by byte (`byteAt_le128`), a lane being its sixteen bytes (`eq_of_byteAt_eq`). -/
theorem littleEndianLane : Obligations.LittleEndianLane :=
  ⟨fun B _ _ hi => byteAt_le128 B hi, fun v _ hi => getElem?_bytes16 v hi, fun _ hB => bytes16_le128 hB,
    fun v => ⟨le128_bytes16 v, length_bytes16 v⟩, by decide⟩

end Sys2Proof.Machine
end

/-! The memory family of statements, second part: what a list of commands does to the block, the SIV sequence (R81) and SIV
decryption (R83). -/

section

namespace Sys2Proof.Machine

/-! ## Running the commands the host issues -/

/-- The encoder loses nothing of a command (R32, R33, R35). -/
theorem decode_encode (i : Instr) : decode (encode i) = .ok i := by
  have hlen : i.opcode = .pvAbsorb ∨ i.lenField = 0#5 := by
    cases i with
    | pvAbsorb n d => exact .inl rfl
    | _ => exact .inr rfl
  have hinstr : i.opcode.instr (encode i) = i := by
    cases i with
    | clmul a b => simp [Instr.opcode, Opcode.instr, encode, Instr.laneA, Instr.laneB]
    | pvAbsorb n d => simp [Instr.opcode, Opcode.instr, encode, Instr.laneA, Instr.lenField]
    | _ => rfl
  have h := decode_of_fields i.laneA i.laneB (rsv_ofFields i.lenField i.opcode.bits) (op_ofFields ..) (by simpa using hlen)
  exact h.trans (congrArg _ hinstr)

/-- The block after it has answered these commands, each by its effect on the registers it finds. -/
def State.afterCommands (s : State) (is : List Instr) : State :=
  is.foldl (fun t i => t.after (effect t.key t.acc t.kv i)) s

theorem afterCommands_cons (s : State) (i : Instr) (is : List Instr) :
    s.afterCommands (i :: is) = (s.after (effect s.key s.acc s.kv i)).afterCommands is := rfl

theorem afterCommands_append (s : State) (is js : List Instr) :
    s.afterCommands (is ++ js) = (s.afterCommands is).afterCommands js := List.foldl_append

/-- A step on an issued command has that command's effect. -/
theorem step_issue_cons (s : State) (i : Instr) (is : List Instr) :
    step (s.issue (i :: is)) = .next ((s.after (effect s.key s.acc s.kv i)).issue is) := by
  rw [issue_cons, step_presenting, frameEffect, decode_encode]
  rfl

/-- Issued commands run to the end, one step each. -/
theorem run_issue (is : List Instr) (s : State) :
    Host.Core.run Sys2Proof.core is.length (s.issue is) = .next (s.afterCommands is) := by
  induction is generalizing s with
  | nil => exact run_zero s
  | cons i is ih => rw [List.length_cons, run_succ _ (step_issue_cons s i is), ih, afterCommands_cons]

/-! ## Chunks (R64) -/

theorem toNat_maskBytes {n : Nat} (hn : n ≤ 16) : (maskBytes n).toNat = 2 ^ (8 * n) - 1 := by
  have hpow : 2 ^ (8 * n) ≤ 2 ^ 128 := Nat.pow_le_pow_right (by decide) (by omega)
  have hpos : 0 < 2 ^ (8 * n) := Nat.two_pow_pos _
  have hone : (1#129 <<< (8 * n)).toNat = 2 ^ (8 * n) := by
    rw [BitVec.toNat_shiftLeft, Nat.shiftLeft_eq]
    simp only [BitVec.toNat_ofNat]
    omega
  simp only [maskBytes, BitVec.toNat_setWidth, BitVec.toNat_sub, hone, BitVec.toNat_ofNat]
  omega

theorem getLsbD_maskBytes {n : Nat} (hn : n ≤ 16) (j : Nat) : (maskBytes n).getLsbD j = decide (j < 8 * n) := by
  rw [BitVec.getLsbD, toNat_maskBytes hn, Nat.testBit_two_pow_sub_one]

/-- A string has no bit beyond its last byte. -/
theorem getLsbD_le128_of_length_le {B : List Byte} {j : Nat} (h : 8 * B.length ≤ j) : (le128 B).getLsbD j = false := by
  induction B generalizing j with
  | nil => simp [le128]
  | cons b bs ih =>
    rw [List.length_cons] at h
    have hrest : (le128 bs).getLsbD (j - 8) = false := ih (by omega)
    have hbyte : b.getLsbD j = false := BitVec.getLsbD_of_ge _ _ (by omega)
    simp [le128, hrest, hbyte]

/-- A chunk that is no longer than its length field says is already padded. -/
theorem paddedChunk_le128 {n : BitVec 5} {B : List Byte} (hB : B.length ≤ n.toNat) (hn : n.toNat ≤ 16) :
    paddedChunk n (le128 B) = le128 B := by
  refine BitVec.eq_of_getLsbD_eq fun j _ => ?_
  rw [paddedChunk, BitVec.getLsbD_and, getLsbD_maskBytes hn]
  rcases Nat.lt_or_ge j (8 * n.toNat) with hj | hj
  · simp [hj]
  · rw [getLsbD_le128_of_length_le (by omega), Bool.false_and]

/-- A whole lane is a chunk of 16 bytes. -/
theorem paddedChunk_sixteen (d : Lane) : paddedChunk 16#5 d = d := by
  rw [← le128_bytes16 d]
  exact paddedChunk_le128 (by simp) (by decide)

theorem length_piece (data : List Byte) (j : Nat) : (piece data j).length = min 16 (data.length - 16 * j) := by
  simp [piece]

/-! ## Absorbing (R65, R68, R80) -/

/-- The block after it has absorbed these blocks in so many commands, each answered `OK` and nothing else (R68). -/
def State.absorbed (s : State) (commands : Nat) (blocks : List Lane) : State :=
  { s with
    acc := absorbChunks s.key s.acc blocks,
    responses := s.responses ++ List.replicate commands ⟨.ok, 0#128⟩ }

@[simp] theorem absorbed_kv (s : State) (n : Nat) (xs : List Lane) : (s.absorbed n xs).kv = s.kv := rfl

theorem absorbed_zero (s : State) : s.absorbed 0 [] = s := by simp [State.absorbed, absorbChunks]

theorem absorbed_absorbed (s : State) (m n : Nat) (xs ys : List Lane) :
    (s.absorbed m xs).absorbed n ys = s.absorbed (m + n) (xs ++ ys) := by
  simp [State.absorbed, absorbChunks_append]

/-- From any state with a key the commands absorb these blocks. -/
def Absorbs (is : List Instr) (blocks : List Lane) : Prop :=
  ∀ s : State, s.kv = true → s.afterCommands is = s.absorbed is.length blocks

theorem absorbs_nil : Absorbs [] [] := fun s _ => (absorbed_zero s).symm

theorem Absorbs.append {is js : List Instr} {xs ys : List Lane} (h : Absorbs is xs) (h' : Absorbs js ys) :
    Absorbs (is ++ js) (xs ++ ys) := by
  intro s hs
  rw [afterCommands_append, h s hs, h' _ ((absorbed_kv ..).trans hs), absorbed_absorbed, List.length_append]

/-- One chunk of 1 to 16 bytes (R65). -/
theorem absorbs_chunk {n : BitVec 5} (d : Lane) (hpos : 1 ≤ n.toNat) (hn : n.toNat ≤ 16) :
    Absorbs [.pvAbsorb n d] [paddedChunk n d] := by
  intro s hs
  have hlen : ¬ n.toNat > 16 := by omega
  have hzero : n ≠ 0#5 := by rintro rfl; exact absurd hpos (by decide)
  simp [State.afterCommands, State.after, State.absorbed, effect, hs, hlen, hzero, absorbChunks]

/-- One chunk per member of a list. -/
theorem absorbs_map {α : Type} (f : α → Instr) (g : α → Lane) (l : List α) (h : ∀ a ∈ l, Absorbs [f a] [g a]) :
    Absorbs (l.map f) (l.map g) := by
  induction l with
  | nil => exact absorbs_nil
  | cons a l ih => exact (h a (by simp)).append (ih fun b hb => h b (by simp [hb]))

/-- The chunk that carries a piece of a string absorbs the piece padded with zeros. -/
theorem absorbs_piece {data : List Byte} {j : Nat} {n : BitVec 5} (hpos : 1 ≤ n.toNat) (hn : n.toNat ≤ 16)
    (hlen : (piece data j).length ≤ n.toNat) :
    Absorbs [.pvAbsorb n (le128 (piece data j))] [le128 (piece data j)] := by
  have h := absorbs_chunk (le128 (piece data j)) hpos hn
  rwa [paddedChunk_le128 hlen hn] at h

/-- `PV.ABSORBM` absorbs the padded blocks of its string (R80): the whole pieces, and the rest if there is one. -/
theorem absorbs_pvAbsorbM (data : List Byte) : Absorbs (pvAbsorbM data) (paddedBlocks data) := by
  have hwhole : Absorbs ((List.range (data.length / 16)).map fun j => .pvAbsorb 16#5 (le128 (piece data j)))
      ((List.range (data.length / 16)).map fun j => le128 (piece data j)) :=
    absorbs_map _ _ _ fun j _ => absorbs_piece (by decide) (by decide) (by simp [length_piece])
  unfold pvAbsorbM paddedBlocks
  split
  next hrest =>
    rw [List.append_nil, show (data.length + 15) / 16 = data.length / 16 by omega]
    exact hwhole
  next hrest =>
    have hn : (BitVec.ofNat 5 (data.length % 16)).toNat = data.length % 16 := by simp; omega
    rw [show (data.length + 15) / 16 = data.length / 16 + 1 by omega, List.range_succ, List.map_append]
    exact hwhole.append (absorbs_piece (by omega) (by omega) (by rw [hn, length_piece]; omega))

/-- The length trailer is one whole block (R84). -/
theorem absorbs_pvLenBlk (abits pbits : BitVec 64) : Absorbs [pvLenBlk abits pbits] [pbits ++ abits] := by
  have h := absorbs_chunk (n := 16#5) (pbits ++ abits) (by decide) (by decide)
  rwa [paddedChunk_sixteen] at h

/-! ## The SIV sequence (R81) -/

/-- The part of the sequence between `PV.RESET` and `PV.READ`. -/
def sivAbsorbs (aad plaintext : List Byte) : List Instr :=
  pvAbsorbM aad ++ pvAbsorbM plaintext ++ [pvLenBlk (bitLength aad) (bitLength plaintext)]

theorem sivHash_eq (aad plaintext : List Byte) : sivHash aad plaintext = .pvReset :: (sivAbsorbs aad plaintext ++ [.pvRead]) := by
  simp [sivHash, sivAbsorbs]

theorem absorbs_sivAbsorbs (aad plaintext : List Byte) : Absorbs (sivAbsorbs aad plaintext) (sivBlocks aad plaintext) :=
  ((absorbs_pvAbsorbM aad).append (absorbs_pvAbsorbM plaintext)).append (absorbs_pvLenBlk _ _)

theorem afterCommands_pvReset_cons (s : State) (is : List Instr) :
    s.afterCommands (.pvReset :: is) = ((s.setAcc 0#128).respond .ok 0#128).afterCommands is := rfl

theorem afterCommands_pvRead {s : State} (hs : s.kv = true) : s.afterCommands [.pvRead] = s.respond .ok s.acc := by
  simp [State.afterCommands, State.after, State.respond, effect, hs]

/-- The hash of one message: what the sequence of R81 leaves in the accumulator. -/
def sivHashValue (key : Lane) (aad plaintext : List Byte) : Lane := absorbChunks key 0#128 (sivBlocks aad plaintext)

/-- The block after the sequence of R81. -/
def State.afterSivHash (s : State) (aad plaintext : List Byte) : State :=
  { s with
    acc := sivHashValue s.key aad plaintext,
    responses := s.responses ++ List.replicate ((sivHash aad plaintext).length - 1) ⟨.ok, 0#128⟩ ++
      [⟨.ok, sivHashValue s.key aad plaintext⟩] }

@[simp] theorem afterSivHash_key (s : State) (aad plaintext : List Byte) : (s.afterSivHash aad plaintext).key = s.key := rfl

/-- The sequence of R81 clears the accumulator, absorbs the padded fields and the trailer, and reads the hash. -/
theorem afterCommands_sivHash {s : State} (hs : s.kv = true) (aad plaintext : List Byte) :
    s.afterCommands (sivHash aad plaintext) = s.afterSivHash aad plaintext := by
  have hlen : (sivHash aad plaintext).length - 1 = (sivAbsorbs aad plaintext).length + 1 := by simp [sivHash_eq]
  have hcleared : ((s.setAcc 0#128).respond .ok 0#128).kv = true := hs
  rw [State.afterSivHash, hlen, sivHash_eq, afterCommands_pvReset_cons, afterCommands_append,
    absorbs_sivAbsorbs aad plaintext _ hcleared, afterCommands_pvRead ((absorbed_kv ..).trans hcleared)]
  simp [State.respond, State.setAcc, State.absorbed, sivHashValue, List.replicate_succ]

theorem perform_sivHash {s : State} (hs : s.kv = true) (aad plaintext : List Byte) :
    perform (sivHash aad plaintext) s = some (s.afterSivHash aad plaintext, ⟨.ok, sivHashValue s.key aad plaintext⟩) :=
  perform_of_run ((run_issue _ s).trans (congrArg _ (afterCommands_sivHash hs aad plaintext))) rfl

/-! ## The tag check (R73, R83) -/

theorem orReduce_eq_false (v : Lane) : orReduce v = false ↔ v = 0#128 := by
  rw [orReduce, orReduceUpTo_eq_false]
  constructor
  · exact fun h => BitVec.eq_of_getLsbD_eq (by simpa using h)
  · rintro rfl
    simp

/-- `TAG.EQ` compares for full equality (R73). -/
theorem equalBit_eq (x y : Lane) : equalBit x y = BitVec.ofBool (decide (x = y)) := by
  have hxor : (!orReduce (x ^^^ y)) = decide (x = y) := by
    rw [Bool.eq_iff_iff, Bool.not_eq_true', orReduce_eq_false, BitVec.xor_eq_zero_iff, decide_eq_true_iff]
  rw [equalBit, hxor]

theorem setWidth_equalBit (x y : Lane) : (equalBit x y).setWidth 128 = if decide (x = y) then 1#128 else 0#128 := by
  rw [equalBit_eq]
  cases decide (x = y) <;> rfl

/-- The tag check changes nothing but to add its one answer. -/
theorem perform_tagCheck (expected : Lane) (claimed : List Byte) (s : State) :
    perform (tagCheck (bytes16 expected) claimed) s =
      some ({ s with responses := s.responses ++ [⟨.ok, if decide (expected = le128 claimed) then 1#128 else 0#128⟩] },
        ⟨.ok, if decide (expected = le128 claimed) then 1#128 else 0#128⟩) := by
  rw [← setWidth_equalBit]
  refine perform_of_run (rs := s.responses) ((run_issue _ s).trans ?_) rfl
  rw [tagCheck, le128_bytes16]
  rfl

theorem authenticated_bit (st : Status) (b : Bool) : authenticated ⟨st, if b then 1#128 else 0#128⟩ = b := by
  cases b <;> simp [authenticated]

/-! ## SIV encryption and decryption (R81, R83) -/

/-- R81's masking: the nonce added into bits 0 to 95, bit 127 cleared. -/
theorem getLsbD_sivMask (nonce : BitVec 96) (hash : Lane) {j : Nat} (hj : j < 128) :
    (sivMask nonce hash).getLsbD j =
      if j < 96 then hash.getLsbD j ^^ nonce.getLsbD j else if j < 127 then hash.getLsbD j else false := by
  have htop : (BitVec.allOnes 128 >>> 1).getLsbD j = decide (j < 127) := by
    rw [BitVec.getLsbD_ushiftRight, BitVec.getLsbD_allOnes]
    exact decide_eq_decide.mpr (by omega)
  rw [sivMask, BitVec.getLsbD_and, htop, BitVec.getLsbD_xor, BitVec.getLsbD_setWidth, decide_eq_true hj, Bool.true_and]
  split
  next hlow => simp [show j < 127 by omega]
  next hlow =>
    rw [BitVec.getLsbD_of_ge nonce j (by omega), Bool.xor_false]
    split <;> simp [*]

section

variable (encryptBlock : Lane → Lane) (counterMode : Lane → List Byte → List Byte) (nonce : BitVec 96) (aad : List Byte)

theorem sivEncrypt_of_kv (plaintext : List Byte) {s : State} (hs : s.kv = true) :
    let tag := sivTag encryptBlock nonce (sivHashValue s.key aad plaintext)
    sivEncrypt encryptBlock counterMode nonce aad plaintext s =
      some ⟨counterMode tag plaintext, tag, s.afterSivHash aad plaintext⟩ := by
  simp [sivEncrypt, perform_sivHash hs]

theorem sivDecrypt_of_kv (ciphertext : List Byte) {tag : List Byte} {s : State} (hs : s.kv = true) (htag : tag.length = 16) :
    let plaintext := counterMode (le128 tag) ciphertext
    let equal : Bool := decide (sivTag encryptBlock nonce (sivHashValue s.key aad plaintext) = le128 tag)
    let hashed := s.afterSivHash aad plaintext
    sivDecrypt encryptBlock counterMode nonce aad (ciphertext ++ tag) s =
      some ⟨equal, plaintext, { hashed with responses := hashed.responses ++ [⟨.ok, if equal then 1#128 else 0#128⟩] }⟩ := by
  obtain ⟨htake, hdrop⟩ := split_trailing (message := ciphertext) (tag := tag) htag
  have hroom : ¬ (ciphertext ++ tag).length < Config.chunkBytes := by simp [htag, Config.chunkBytes]
  intro plaintext equal hashed
  rw [sivDecrypt, if_neg hroom, htake, hdrop]
  simp only [perform_sivHash hs, Option.bind_some, perform_tagCheck, Option.map_some, authenticated_bit]
  rfl

theorem sivDecrypt_of_length_lt {buffer : List Byte} (h : buffer.length < 16) (s : State) :
    sivDecrypt encryptBlock counterMode nonce aad buffer s = none := if_pos h

end

/-- Settles O59: the two constructions put together from the sequence of R81 (`perform_sivHash`) and the tag check
(`perform_tagCheck`); both compute the hash under the same key, which no command of theirs changes. -/
theorem sivDecryptHashesThenCompares : Obligations.SivDecryptHashesThenCompares := by
  refine ⟨?_, fun nonce hash j hj => getLsbD_sivMask nonce hash hj, ?_,
    fun encryptBlock counterMode nonce aad buffer s h => sivDecrypt_of_length_lt encryptBlock counterMode nonce aad h s⟩
  · intro encryptBlock counterMode nonce aad ciphertext tag s hs htag
    rw [sivDecrypt_of_kv encryptBlock counterMode nonce aad ciphertext hs htag]
    simp only [State.afterSivHash, List.append_assoc]
    rfl
  · intro encryptBlock counterMode nonce aad plaintext s hs hundo
    refine ⟨_, _, sivEncrypt_of_kv encryptBlock counterMode nonce aad plaintext hs,
      sivDecrypt_of_kv encryptBlock counterMode nonce aad _ (s := s.afterSivHash aad plaintext) hs (length_bytes16 _), ?_, ?_⟩
    · simp [hundo]
    · simp [hundo]

end Sys2Proof.Machine
end

/-! The encoding family of statements (30_encoding.md R31, R35, R36, R37): which words are reserved, the order of the decoder's
tests, and the lane bits a command does not read. -/

section

namespace Sys2Proof.Machine

/-! ## Reserved words (R36) -/

/-- The words R36 reserves, by the first three tests of R37. -/
def Reserved (cw : CommandWord) : Prop :=
  CommandWord.rsv cw ≠ 0#23 ∨ (CommandWord.op cw = 0#4 ∨ 7 ≤ (CommandWord.op cw).toNat) ∨
    (CommandWord.op cw ≠ Opcode.bits .pvAbsorb ∧ CommandWord.len cw ≠ 0#5)

/-- No reserved word is a command: a command's word has an assigned opcode, and a length only in `PV.ABSORB`. -/
theorem not_reserved_of_decode {f : Request} {i : Instr} (h : decode f = .ok i) : ¬ Reserved f.cw := by
  obtain ⟨hrsv, hop, hlen, -⟩ := decode_eq_ok h
  rw [Reserved, hrsv, hop, hlen]
  cases i <;> simp [Instr.opcode, Opcode.bits, Instr.lenField]

/-- The decoder rejects exactly the reserved words, whatever the lanes hold. -/
theorem decode_error_iff_reserved (f : Request) : (∃ e, decode f = .error e) ↔ Reserved f.cw := by
  constructor
  · rintro ⟨e, h⟩
    exact decode_eq_error h
  · intro hres
    rcases h : decode f with e | i
    · exact ⟨e, rfl⟩
    · exact absurd hres (not_reserved_of_decode h)

/-- Every word that is not reserved is a command. -/
theorem decode_ok_of_not_reserved {f : Request} (h : ¬ Reserved f.cw) : ∃ i, decode f = .ok i := by
  rcases hd : decode f with e | i
  · exact absurd ((decode_error_iff_reserved f).mp ⟨e, hd⟩) h
  · exact ⟨i, rfl⟩

/-- The length clause in R36's words: among the assigned opcodes, those other than `PV.ABSORB` are these five. -/
theorem ne_pvAbsorb_iff {b : BitVec 4} (h : ¬ (b = 0#4 ∨ 7 ≤ b.toNat)) :
    b ≠ Opcode.bits .pvAbsorb ↔ b = 0x1#4 ∨ b = 0x2#4 ∨ b = 0x3#4 ∨ b = 0x5#4 ∨ b = 0x6#4 := by
  revert b
  decide

/-- R36's list of the reserved words. -/
theorem reserved_iff_listed (cw : CommandWord) :
    Reserved cw ↔ CommandWord.rsv cw ≠ 0#23 ∨ CommandWord.op cw = 0x0#4 ∨ 0x7 ≤ (CommandWord.op cw).toNat ∨
      ((CommandWord.op cw = 0x1#4 ∨ CommandWord.op cw = 0x2#4 ∨ CommandWord.op cw = 0x3#4 ∨ CommandWord.op cw = 0x5#4 ∨
        CommandWord.op cw = 0x6#4) ∧ CommandWord.len cw ≠ 0#5) := by
  by_cases hop : CommandWord.op cw = 0#4 ∨ 7 ≤ (CommandWord.op cw).toNat
  · exact iff_of_true (.inr (.inl hop)) (.inr (hop.imp_right .inl))
  · rw [Reserved, ne_pvAbsorb_iff hop, or_assoc]

theorem bits_injective {o p : Opcode} (h : o.bits = p.bits) : o = p :=
  Option.some.inj (by rw [← ofBits_bits o, h, ofBits_bits])

/-! ## One step on a request -/

theorem frameEffect_of_decode {f : Request} {i : Instr} (h : decode f = .ok i) (key acc : Lane) (kv : Bool) :
    frameEffect key acc kv f = effect key acc kv i := by
  simp only [frameEffect, h]

/-- A command's word is executed. -/
theorem step_of_decode (s : State) {f : Request} {i : Instr} (rest : List HostInput) (h : decode f = .ok i) :
    step (s.presenting f rest) = exec i (s.setInputs rest) := by
  rw [step_presenting, frameEffect_of_decode h, exec_eq_after]
  rfl

/-- A reserved word ends in `ERR_ILLEGAL` without effect (R92, R96). -/
theorem step_of_reserved (s : State) {f : Request} (rest : List HostInput) (h : Reserved f.cw) :
    step (s.presenting f rest) =
      .next { s with inputs := rest, responses := s.responses ++ [⟨.error .errIllegal, 0#128⟩] } := by
  obtain ⟨e, he⟩ := (decode_error_iff_reserved f).mpr h
  rw [step_presenting, frameEffect, he]
  rfl

/-- Past the decoder's three tests, the opcode selects the command (R37). -/
theorem step_of_opcode (s : State) {cw : CommandWord} (opa opb : Lane) (rest : List HostInput) (o : Opcode)
    (hrsv : ¬ CommandWord.rsv cw ≠ 0#23)
    (hlen : ¬ (CommandWord.op cw ≠ Opcode.bits .pvAbsorb ∧ CommandWord.len cw ≠ 0#5)) (ho : CommandWord.op cw = o.bits) :
    step (s.presenting ⟨cw, opa, opb⟩ rest) = exec (o.instr ⟨cw, opa, opb⟩) (s.setInputs rest) := by
  have hlen' : o = .pvAbsorb ∨ CommandWord.len cw = 0#5 := by
    by_contra hc
    obtain ⟨hne, hl⟩ := not_or.mp hc
    exact hlen ⟨fun h => hne (bits_injective (ho.symm.trans h)), hl⟩
  exact step_of_decode s rest (decode_of_fields opa opb (not_not.mp hrsv) ho hlen')

theorem effect_pvAbsorb_of_long (key acc : Lane) (kv : Bool) {n : BitVec 5} (d : Lane) (hn : 16 < n.toNat) :
    effect key acc kv (.pvAbsorb n d) = .error .errLen key acc kv := if_pos hn

/-- `PV.ABSORB` with a length above 16 (R93). -/
theorem exec_pvAbsorb_of_long (s : State) {n : BitVec 5} (d : Lane) (hn : 16 < n.toNat) :
    exec (.pvAbsorb n d) s = .next { s with responses := s.responses ++ [⟨.error .errLen, 0#128⟩] } := by
  rw [exec_eq_after, ← after_error, effect_pvAbsorb_of_long _ _ _ d hn]

/-- `ERR_ILLEGAL` is the decoder's alone: no command answers it. -/
theorem effect_st_ne_errIllegal (key acc : Lane) (kv : Bool) (i : Instr) :
    (effect key acc kv i).st ≠ .error .errIllegal := by
  cases i with
  | pvAbsorb n d => simp only [effect]; split_ifs <;> simp [Effect.error]
  | pvRead => simp only [effect]; split_ifs <;> simp [Effect.error]
  | clmul a b => simp [effect]
  | pvKey k => simp [effect]
  | pvReset => simp [effect]
  | tagEq x y => simp [effect]

/-! ## The operand bits (R35) -/

/-- A bit of a lane stands in the byte of its number. -/
theorem getLsbD_eq_getLsbD_byteAt (v : Lane) (j : Nat) : v.getLsbD j = (byteAt v (j / 8)).getLsbD (j % 8) := by
  simp [byteAt, show j % 8 < 8 by omega, Nat.div_add_mod]

/-- A chunk is given by the bytes within its length (R64). -/
theorem paddedChunk_congr {n : BitVec 5} {d e : Lane} (hn : n.toNat ≤ 16) (h : ∀ i < n.toNat, byteAt d i = byteAt e i) :
    paddedChunk n d = paddedChunk n e := by
  refine BitVec.eq_of_getLsbD_eq fun j _ => ?_
  rw [paddedChunk, paddedChunk, BitVec.getLsbD_and, BitVec.getLsbD_and, getLsbD_maskBytes hn]
  by_cases hj : j < 8 * n.toNat
  · rw [getLsbD_eq_getLsbD_byteAt d, getLsbD_eq_getLsbD_byteAt e, h (j / 8) (by omega)]
  · simp [hj]

/-- `PV.ABSORB` reads the bytes of its lane within its length only, and none when the length is out of range. -/
theorem effect_pvAbsorb_congr (key acc : Lane) (kv : Bool) {n : BitVec 5} {d e : Lane}
    (h : ∀ i < n.toNat, byteAt d i = byteAt e i) :
    effect key acc kv (.pvAbsorb n d) = effect key acc kv (.pvAbsorb n e) := by
  rcases Nat.lt_or_ge 16 n.toNat with hn | hn
  · rw [effect_pvAbsorb_of_long _ _ _ d hn, effect_pvAbsorb_of_long _ _ _ e hn]
  · simp only [effect, paddedChunk_congr hn h]

/-- Frames with the same word and the same operand bits have the same effect, whatever their other bits (R35). -/
theorem effect_instr_congr (key acc : Lane) (kv : Bool) (o : Opcode) {f g : Request} (hcw : f.cw = g.cw)
    (h : sameOperands o (CommandWord.len f.cw) f g) :
    effect key acc kv (o.instr f) = effect key acc kv (o.instr g) := by
  cases o with
  | clmul => obtain ⟨ha, hb⟩ := h; simp only [Opcode.instr, ha, hb]
  | pvKey => exact congrArg (fun k => effect key acc kv (.pvKey k)) h
  | pvReset => rfl
  | pvAbsorb => simp only [Opcode.instr, ← hcw]; exact effect_pvAbsorb_congr key acc kv h
  | pvRead => rfl
  | tagEq => obtain ⟨ha, hb⟩ := h; simp only [Opcode.instr, ha, hb]

/-- The same word selects the same command, its operands taken from the other frame. -/
theorem decode_congr_cw {f g : Request} {i : Instr} (hf : decode f = .ok i) (hcw : f.cw = g.cw) :
    decode g = .ok (i.opcode.instr g) := by
  obtain ⟨hrsv, hop, hlen, -⟩ := decode_eq_ok hf
  rw [hcw] at hrsv hop hlen
  refine decode_of_fields g.opa g.opb hrsv hop ?_
  rw [hlen]
  cases i with
  | pvAbsorb n d => exact .inl rfl
  | _ => exact .inr rfl

/-- The word of `PV.ABSORB` with a length, as a number (R32, R33). -/
theorem pvAbsorb_word : ∀ n < 32,
    BitVec.ofNat 32 (0x4 + 0x10 * n) = CommandWord.ofFields (BitVec.ofNat 5 n) (Opcode.bits .pvAbsorb) := by
  decide

/-! ## The statements of the family -/

/-- Settles O5: the table from the decoder's fields (`decode_of_fields`); two frames that agree on the operand bits decode to
commands of one effect (`effect_instr_congr`). -/
theorem operandLanes : Obligations.OperandLanes := by
  refine ⟨fun opa opb => ⟨?_, ?_, ?_, ?_, ?_⟩, ?_, ?_⟩
  · exact decode_of_fields (op := .clmul) opa opb rfl rfl (.inr rfl)
  · exact decode_of_fields (op := .pvKey) opa opb rfl rfl (.inr rfl)
  · exact decode_of_fields (op := .pvReset) opa opb rfl rfl (.inr rfl)
  · exact decode_of_fields (op := .pvRead) opa opb rfl rfl (.inr rfl)
  · exact decode_of_fields (op := .tagEq) opa opb rfl rfl (.inr rfl)
  · intro n opa opb hn
    rw [pvAbsorb_word n (by omega), decode_of_fields opa opb (rsv_ofFields ..) (op_ofFields ..) (.inl rfl)]
    simp [Opcode.instr]
  · intro s f g i rest hf hcw hsame
    obtain ⟨-, -, hlen, hi⟩ := decode_eq_ok hf
    rw [← hlen] at hsame
    have heffect := effect_instr_congr s.key s.acc s.kv i.opcode hcw hsame
    rw [← hi] at heffect
    rw [step_presenting, step_presenting, frameEffect_of_decode hf, frameEffect_of_decode (decode_congr_cw hf hcw), heffect]

/-- Settles O6: test by test in R37's order; a word that passes the first three runs the command of its opcode
(`step_of_opcode`), which makes the last two tests itself. -/
theorem decodeOrderAndErrorPriority : Obligations.DecodeOrderAndErrorPriority := by
  intro s cw opa opb rest ended execute op len
  split_ifs with hrsv hop hlen hlong hkey h1 h2 h3 h4 h5
  · exact step_of_reserved s rest (.inl hrsv)
  · exact step_of_reserved s rest (.inr (.inl hop))
  · exact step_of_reserved s rest (.inr (.inr hlen))
  · obtain ⟨h4, hn⟩ := hlong
    exact (step_of_opcode s opa opb rest .pvAbsorb hrsv hlen h4).trans (exec_pvAbsorb_of_long _ opa hn)
  · obtain ⟨h4 | h5, hkv⟩ := hkey
    · have hn : len.toNat ≤ 16 := Nat.not_lt.mp fun hn => hlong ⟨h4, hn⟩
      exact (step_of_opcode s opa opb rest .pvAbsorb hrsv hlen h4).trans (exec_pvAbsorb_of_no_kv (s := s.setInputs rest) hkv opa hn)
    · exact (step_of_opcode s opa opb rest .pvRead hrsv hlen h5).trans (exec_pvRead_of_no_kv (s := s.setInputs rest) hkv)
  · exact step_of_opcode s opa opb rest .clmul hrsv hlen h1
  · exact step_of_opcode s opa opb rest .pvKey hrsv hlen h2
  · exact step_of_opcode s opa opb rest .pvReset hrsv hlen h3
  · exact step_of_opcode s opa opb rest .pvAbsorb hrsv hlen h4
  · exact step_of_opcode s opa opb rest .pvRead hrsv hlen h5
  · have h6 : op = 6#4 := by bv_omega
    exact step_of_opcode s opa opb rest .tagEq hrsv hlen h6

/-- Settles O8: the listed conditions are `Reserved` (`reserved_iff_listed`); a command's answer is never `ERR_ILLEGAL`
(`effect_st_ne_errIllegal`). -/
theorem reservedWordsAreIllegal : Obligations.ReservedWordsAreIllegal := by
  intro s f rest op reserved
  have hlisted : Reserved f.cw ↔ reserved := reserved_iff_listed f.cw
  refine ⟨fun h => step_of_reserved s rest (hlisted.mpr h), fun h => ?_⟩
  obtain ⟨i, hi⟩ := decode_ok_of_not_reserved (hlisted.not.mpr h)
  refine ⟨⟨i, hi⟩, _, _, step_presenting s f rest, after_responses .., ?_⟩
  rw [frameEffect_of_decode hi]
  exact effect_st_ne_errIllegal s.key s.acc s.kv i

/-- Settles O14: a step on a presented frame is an effect on the registers and one response (`step_presenting`). -/
theorem everyRequestAnsweredOnce : Obligations.EveryRequestAnsweredOnce := by
  intro s f rest h
  rw [eq_presenting h]
  exact ⟨_, _, step_presenting s f rest, after_responses .., after_inputs ..⟩

end Sys2Proof.Machine
end

/-! The carry-less multiply family of statements (40_clmul.md R45, R48): the product as a loop and bit by bit, and the command. -/

section

namespace Sys2Proof.Machine

/-! ## The product bit by bit (R45) -/

theorem clmulUpTo_eq_foldl (a b : Half) (m : Nat) :
    clmulUpTo a b m =
      (List.range m).foldl (fun r i => if b.getLsbD i then r ^^^ (a.setWidth 128 <<< i) else r) 0#128 := by
  induction m with
  | zero => rfl
  | succ m ih => rw [List.range_succ, List.foldl_append, ← ih]; rfl

/-- Iteration `m` adds `a[n - m]` to bit `n` when `b[m]` is set. -/
theorem getLsbD_clmulUpTo_succ (a b : Half) (m : Nat) {n : Nat} (hn : n < 128) :
    (clmulUpTo a b (m + 1)).getLsbD n =
      ((clmulUpTo a b m).getLsbD n ^^ (b.getLsbD m && decide (m ≤ n) && a.getLsbD (n - m))) := by
  have hshift : (a.setWidth 128 <<< m).getLsbD n = (decide (m ≤ n) && a.getLsbD (n - m)) := by
    rcases Nat.lt_or_ge n m with h | h
    · simp [h, Nat.not_le.mpr h]
    · simp [hn, h, Nat.not_lt.mpr h]
  rw [clmulUpTo_succ, BitVec.getLsbD_xor]
  cases b.getLsbD m
  · simp
  · simp [hshift]

theorem getLsbD_clmulUpTo (a b : Half) (m : Nat) {n : Nat} (hn : n < 128) :
    (clmulUpTo a b m).getLsbD n =
      (List.range m).foldl (fun x i => x ^^ (b.getLsbD i && decide (i ≤ n) && a.getLsbD (n - i))) false := by
  induction m with
  | zero => simp
  | succ m ih => rw [getLsbD_clmulUpTo_succ a b m hn, ih, List.range_succ, List.foldl_append]; rfl

/-- The first `m` iterations reach no bit from `63 + m` on. -/
theorem getLsbD_clmulUpTo_of_le (a b : Half) {m n : Nat} (hmn : 63 + m ≤ n) (hn : n < 128) :
    (clmulUpTo a b m).getLsbD n = false := by
  induction m with
  | zero => simp
  | succ m ih =>
    have habove : a.getLsbD (n - m) = false := BitVec.getLsbD_of_ge _ _ (by omega)
    rw [getLsbD_clmulUpTo_succ a b m hn, ih (by omega), habove, Bool.and_false, Bool.xor_false]

/-! ## The command (R48) -/

/-- The word 0x1 is `CLMUL` on the low halves of the lanes, whatever the high halves hold. -/
theorem decode_clmul_word (opa opb : Lane) : decode ⟨0x1#32, opa, opb⟩ = .ok (.clmul (Lane.lo opa) (Lane.lo opb)) :=
  decode_of_fields (op := .clmul) opa opb rfl rfl (.inr rfl)

/-- `CW[31:4]` is `RSV` and `LEN` (R32). -/
theorem extract_above_op (cw : CommandWord) : cw.extractLsb' 4 28 = CommandWord.rsv cw ++ CommandWord.len cw := by
  simp only [CommandWord.rsv, CommandWord.len]
  ext i hi
  simp
  grind

/-- A word with `CLMUL`'s opcode and another bit set is reserved, for its reserved bits or for its length (R36). -/
theorem reserved_of_clmul_op {cw : CommandWord} (hop : CommandWord.op cw = 0x1#4) (h : cw.extractLsb' 4 28 ≠ 0#28) :
    Reserved cw := by
  by_cases hrsv : CommandWord.rsv cw = 0#23
  · have hlen : CommandWord.len cw ≠ 0#5 := by
      intro hlen
      rw [extract_above_op, hrsv, hlen] at h
      exact h rfl
    have hne : CommandWord.op cw ≠ Opcode.bits .pvAbsorb := by rw [hop]; decide
    exact .inr (.inr ⟨hne, hlen⟩)
  · exact .inl hrsv

/-! ## The statements of the family -/

/-- Settles O36: the loop of the model is the loop of the rule (`clmulUpTo_eq_foldl`), and each of its iterations adds one product of
bits to bit n (`getLsbD_clmulUpTo_succ`). -/
theorem clmulBitByBit : Obligations.ClmulBitByBit :=
  fun a b => ⟨clmulUpTo_eq_foldl a b 64, fun _ hn => getLsbD_clmulUpTo a b 64 hn⟩

/-- Settles O27: the word 0x1 decodes to the command (`decode_clmul_word`) and its other words are reserved
(`reserved_of_clmul_op`); the 64 iterations do not reach bit 127 (`getLsbD_clmulUpTo_of_le`). -/
theorem clmulCommand : Obligations.ClmulCommand := by
  refine ⟨fun a b s => exec_eq_after _ s, ?_, ?_, fun a => ⟨clmulUpTo_zero_right a 64, clmulUpTo_zero_left a 64⟩,
    fun a b => getLsbD_clmulUpTo_of_le a b (by decide) (by decide), by decide, by decide, by decide⟩
  · intro opa opb s rest
    rw [step_of_decode s rest (decode_clmul_word opa opb), exec_eq_after]
    rfl
  · intro cw opa opb s rest hop h
    exact step_of_reserved s rest (reserved_of_clmul_op hop h)

end Sys2Proof.Machine
end

/-! The polyval family of statements (41_polyval.md R57, R59, R62 to R66): the exchange of the halves, the mask of a short chunk, and
the four accumulator commands. -/

section

namespace Sys2Proof.Machine

/-! ## The exchange of the halves (R57) and the field multiplication (R59) -/

/-- The exchange of the halves is a rotation by 64 bits. -/
theorem getLsbD_swap64 (v : Lane) {i : Nat} (hi : i < 128) : (swap64 v).getLsbD i = v.getLsbD ((i + 64) % 128) := by
  rw [swap64, Lane.lo, Lane.hi, BitVec.getLsbD_append]
  rcases Nat.lt_or_ge i 64 with h | h
  · simp [h, show (i + 64) % 128 = 64 + i by omega]
  · simp [h, show (i + 64) % 128 = i - 64 by omega, show i - 64 < 64 by omega]

theorem extractLsb'_swap64 (v : Lane) {j : Nat} (hj : j < 4) :
    (swap64 v).extractLsb' (32 * j) 32 = v.extractLsb' (32 * ((j + 2) % 4)) 32 := by
  refine BitVec.eq_of_getLsbD_eq fun i hi => ?_
  have hrot : (32 * j + i + 64) % 128 = 32 * ((j + 2) % 4) + i := by omega
  rw [BitVec.getLsbD_extractLsb', BitVec.getLsbD_extractLsb', getLsbD_swap64 v (by omega), hrot]

@[simp] theorem swap64_swap64 (v : Lane) : swap64 (swap64 v) = v := by
  refine BitVec.eq_of_getLsbD_eq fun i hi => ?_
  rw [getLsbD_swap64 _ hi, getLsbD_swap64 _ (by omega), show ((i + 64) % 128 + 64) % 128 = i by omega]

@[simp] theorem clmul64_zero_left (b : Half) : clmul64 0#64 b = 0#128 := clmulUpTo_zero_left b 64

@[simp] theorem clmul64_zero_right (a : Half) : clmul64 a 0#64 = 0#128 := clmulUpTo_zero_right a 64

@[simp] theorem lo_zero : Lane.lo 0#128 = 0#64 := rfl

@[simp] theorem hi_zero : Lane.hi 0#128 = 0#64 := rfl

theorem foldRound_zero : foldRound 0#128 = 0#128 := by simp [foldRound, foldRoundWith, swap64]

/-- A product whose four partial products are zero is zero. -/
theorem gfmul_of_partials_zero {a k : Lane} (h : partials a k = ⟨0#128, 0#128, 0#128, 0#128⟩) : gfmul a k = 0#128 := by
  simp [gfmul, h, Partials.zHi, Partials.zLo, Partials.middle, foldRound_zero]

@[simp] theorem gfmul_zero_left (k : Lane) : gfmul 0#128 k = 0#128 := gfmul_of_partials_zero (by simp [partials])

@[simp] theorem gfmul_zero_right (a : Lane) : gfmul a 0#128 = 0#128 := gfmul_of_partials_zero (by simp [partials])

/-! ## Short chunks (R64) -/

/-- The mask keeps the bytes below its length and clears the others. -/
theorem byteAt_and_maskBytes (v : Lane) {n : Nat} (hn : n ≤ 16) (i : Nat) :
    byteAt (v &&& maskBytes n) i = if i < n then byteAt v i else 0#8 := by
  refine BitVec.eq_of_getLsbD_eq fun j hj => ?_
  rw [byteAt, BitVec.getLsbD_extractLsb', BitVec.getLsbD_and, getLsbD_maskBytes hn]
  by_cases hin : i < n
  · simp [byteAt, hin, show 8 * i + j < 8 * n by omega]
  · simp [hin, show ¬ 8 * i + j < 8 * n by omega]

/-- Masking is padding with zero bytes. -/
theorem bytes16_and_maskBytes (v : Lane) {n : Nat} (hn : n ≤ 16) :
    bytes16 (v &&& maskBytes n) = (bytes16 v).take n ++ List.replicate (16 - n) 0#8 := by
  have hlen : ((bytes16 v).take n).length = n := by simp [hn]
  refine List.ext_getElem? fun i => ?_
  rcases Nat.lt_or_ge i 16 with hi | hi
  · rw [getElem?_bytes16 _ hi, byteAt_and_maskBytes v hn, List.getElem?_append, hlen]
    split
    next hin => rw [List.getElem?_take_of_lt hin, getElem?_bytes16 v hi]
    next hin => rw [List.getElem?_replicate_of_lt (by omega)]
  · rw [List.getElem?_eq_none (by simpa using hi), List.getElem?_eq_none (by simp; omega)]

@[simp] theorem paddedChunk_zero (n : BitVec 5) : paddedChunk n 0#128 = 0#128 := BitVec.zero_and

/-! ## The command words (R33, R36) -/

/-- Only `PV.ABSORB` has a word with a bit of `CW[31:4]` set: with any other opcode it is reserved. -/
theorem reserved_of_bits_above_op {cw : CommandWord} (hop : CommandWord.op cw ≠ Opcode.bits .pvAbsorb)
    (h : cw.extractLsb' 4 28 ≠ 0#28) : Reserved cw := by
  by_contra hres
  obtain ⟨hrsv, hrest⟩ := not_or.mp hres
  have hlen : CommandWord.len cw = 0#5 := by
    by_contra hlen
    exact hrest (.inr ⟨hop, hlen⟩)
  rw [extract_above_op, not_not.mp hrsv, hlen] at h
  exact h rfl

/-- Such a word ends in `ERR_ILLEGAL`, whatever the lanes hold. -/
theorem step_of_bits_above_op (s : State) {cw : CommandWord} (opa opb : Lane) (rest : List HostInput) (o : Opcode)
    (ho : o ≠ .pvAbsorb) (hop : CommandWord.op cw = o.bits) (h : cw.extractLsb' 4 28 ≠ 0#28) :
    step (s.presenting ⟨cw, opa, opb⟩ rest) =
      .next { s with inputs := rest, responses := s.responses ++ [⟨.error .errIllegal, 0#128⟩] } :=
  step_of_reserved s rest (reserved_of_bits_above_op (fun hbits => ho (bits_injective (hop.symm.trans hbits))) h)

/-- A word of opcode and length alone runs its command, a length standing in `PV.ABSORB` only. -/
theorem step_ofFields (s : State) (len : BitVec 5) (o : Opcode) (opa opb : Lane) (rest : List HostInput)
    (hlen : o = .pvAbsorb ∨ len = 0#5) :
    step (s.presenting ⟨CommandWord.ofFields len o.bits, opa, opb⟩ rest) =
      exec (o.instr ⟨CommandWord.ofFields len o.bits, opa, opb⟩) (s.setInputs rest) :=
  step_of_decode s rest (decode_of_fields opa opb (rsv_ofFields ..) (op_ofFields ..) (by simpa using hlen))

/-! ## `PV.KEY` and `PV.RESET` (R62, R63) -/

theorem exec_pvKey (k : Lane) (s : State) :
    exec (.pvKey k) s = .next ((((s.setKey k).setAcc 0#128).setKv true).respond .ok 0#128) := rfl

theorem exec_pvReset (s : State) : exec .pvReset s = .next ((s.setAcc 0#128).respond .ok 0#128) := rfl

/-! ## `PV.ABSORB` and `PV.READ` with a key (R65, R66) -/

theorem exec_pvAbsorb_of_kv {s : State} (hs : s.kv = true) {n : BitVec 5} (d : Lane) (hpos : 1 ≤ n.toNat) (hn : n.toNat ≤ 16) :
    exec (.pvAbsorb n d) s = .next ((s.absorb n d).respond .ok 0#128) := by
  have hlen : ¬ n.toNat > 16 := by omega
  have hzero : n ≠ 0#5 := by rintro rfl; exact absurd hpos (by decide)
  rw [exec, execPvAbsorb, if_neg hlen, requireKey_of_kv hs, if_neg hzero, succeed]

/-- A chunk of no bytes adds nothing but its response. -/
theorem exec_pvAbsorb_zero_of_kv {s : State} (hs : s.kv = true) (d : Lane) :
    exec (.pvAbsorb 0#5 d) s = .next (s.respond .ok 0#128) := requireKey_of_kv hs

theorem exec_pvRead_of_kv {s : State} (hs : s.kv = true) : exec .pvRead s = .next (s.respond .ok s.acc) :=
  requireKey_of_kv hs

/-- A short chunk absorbs like the same bytes padded with zeros and sent whole, with a key and without. -/
theorem exec_pvAbsorb_padded {n : BitVec 5} (d : Lane) (s : State) (hpos : 1 ≤ n.toNat) (hn : n.toNat ≤ 16) :
    exec (.pvAbsorb n d) s = exec (.pvAbsorb 16#5 (paddedChunk n d)) s := by
  cases hs : s.kv with
  | false => rw [exec_pvAbsorb_of_no_kv hs d hn, exec_pvAbsorb_of_no_kv hs _ (by decide)]
  | true =>
    rw [exec_pvAbsorb_of_kv hs d hpos hn, exec_pvAbsorb_of_kv hs _ (by decide) (by decide), State.absorb, State.absorb,
      paddedChunk_sixteen]

/-- Zero bytes leave a zero accumulator zero, whatever the length. -/
theorem exec_pvAbsorb_zeros {n : BitVec 5} {s : State} (hs : s.kv = true) (hacc : s.acc = 0#128) (hn : n.toNat ≤ 16) :
    exec (.pvAbsorb n 0#128) s = .next ((s.setAcc 0#128).respond .ok 0#128) := by
  by_cases hzero : n = 0#5
  · rw [hzero, exec_pvAbsorb_zero_of_kv hs, ← hacc]
    rfl
  · rw [exec_pvAbsorb_of_kv hs _ (by bv_omega) hn, State.absorb, hacc, paddedChunk_zero, BitVec.xor_zero, gfmul_zero_left]

/-- A zero key takes every accumulator to zero. -/
theorem exec_pvAbsorb_of_key_zero {n : BitVec 5} (d : Lane) {s : State} (hs : s.kv = true) (hkey : s.key = 0#128)
    (hpos : 1 ≤ n.toNat) (hn : n.toNat ≤ 16) :
    exec (.pvAbsorb n d) s = .next ((s.setAcc 0#128).respond .ok 0#128) := by
  rw [exec_pvAbsorb_of_kv hs d hpos hn, State.absorb, hkey, gfmul_zero_right]

/-- A second `PV.READ` gets the answer of the first. -/
theorem exec_pvRead_twice {s t : State} (h : exec .pvRead s = .next t) :
    ∃ u r, exec .pvRead t = .next u ∧ t.responses = s.responses ++ [r] ∧ u.responses = s.responses ++ [r, r] := by
  cases hs : s.kv with
  | false =>
    obtain rfl := Host.Outcome.next.inj ((exec_pvRead_of_no_kv hs).symm.trans h)
    exact ⟨_, _, exec_pvRead_of_no_kv hs, rfl, List.append_assoc ..⟩
  | true =>
    obtain rfl := Host.Outcome.next.inj ((exec_pvRead_of_kv hs).symm.trans h)
    exact ⟨_, _, exec_pvRead_of_kv hs, rfl, List.append_assoc ..⟩

/-! ## The statements of the family -/

/-- Settles O30: the effect is `exec_pvAbsorb_of_kv`, the errors those of the two tests before it; the padding clause is
`exec_pvAbsorb_padded`, the zero clauses the zero laws of `gfmul`. -/
theorem pvAbsorbCommand : Obligations.PvAbsorbCommand := by
  refine ⟨fun n d s hs hpos hn => exec_pvAbsorb_of_kv hs d hpos hn, fun d s hs => exec_pvAbsorb_zero_of_kv hs d,
    fun n d s hn => exec_pvAbsorb_of_long s d hn, fun n d s hs hn => exec_pvAbsorb_of_no_kv hs d hn, ?_,
    fun cw opa opb s rest _ hrsv => step_of_reserved s rest (.inl hrsv), ?_,
    fun n d s hpos hn => exec_pvAbsorb_padded d s hpos hn, fun n s hs hacc hn => exec_pvAbsorb_zeros hs hacc hn,
    fun n d s hs hkey hpos hn => exec_pvAbsorb_of_key_zero d hs hkey hpos hn, by decide⟩
  · intro n opa opb s rest hn
    rw [pvAbsorb_word n (by omega), step_ofFields s _ .pvAbsorb opa opb rest (.inl rfl), Opcode.instr, len_ofFields]
    rfl
  · intro s hs
    rw [exec_pvAbsorb_of_kv hs _ (by decide) (by decide), State.absorb, paddedChunk_zero, BitVec.xor_zero]
    rfl

/-- Settles O35: bit by bit (`getLsbD_maskBytes`), then byte by byte (`byteAt_and_maskBytes`). -/
theorem chunkMask : Obligations.ChunkMask :=
  ⟨fun _ j hn _ => getLsbD_maskBytes hn j, by decide, by decide, by decide, by decide,
    fun _ v hn => bytes16_and_maskBytes v hn⟩

/-- Settles O41: the exchange is a rotation by 64 bits (`getLsbD_swap64`); counted from the other end, word j is word 3 - j. -/
theorem laneRotate : Obligations.LaneRotate := by
  refine fun v => ⟨fun j hj => extractLsb'_swap64 v hj, ?_, rfl, swap64_swap64 v⟩
  intro j hj
  rw [extractLsb'_swap64 v (by omega), show (3 - j + 2) % 4 = 3 - (j + 2) % 4 by omega]

/-- Settles O28: `exec_pvKey`, reached by the word 0x2 (`step_ofFields`) and by no other of its opcode
(`step_of_bits_above_op`). -/
theorem pvKeyCommand : Obligations.PvKeyCommand :=
  ⟨exec_pvKey, fun opa opb s rest => step_ofFields s 0#5 .pvKey opa opb rest (.inr rfl),
    fun _ opa opb s rest hop h => step_of_bits_above_op s opa opb rest .pvKey (by decide) hop h, by decide⟩

/-- Settles O29: `exec_pvReset`, reached by the word 0x3 and by no other of its opcode; a second one finds `ACC` zero. -/
theorem pvResetCommand : Obligations.PvResetCommand := by
  refine ⟨exec_pvReset, fun opa opb s rest => step_ofFields s 0#5 .pvReset opa opb rest (.inr rfl),
    fun _ opa opb s rest hop h => step_of_bits_above_op s opa opb rest .pvReset (by decide) hop h, ?_⟩
  intro s t h
  obtain rfl := Host.Outcome.next.inj ((exec_pvReset s).symm.trans h)
  exact ⟨_, exec_pvReset _, rfl, rfl, rfl⟩

/-- Settles O31: `exec_pvRead_of_kv` with a key and `exec_pvRead_of_no_kv` without; after `PV.KEY` or `PV.RESET` the accumulator it
returns is zero. -/
theorem pvReadCommand : Obligations.PvReadCommand := by
  refine ⟨fun s hs => exec_pvRead_of_kv hs, fun s hs => exec_pvRead_of_no_kv hs,
    fun opa opb s rest => step_ofFields s 0#5 .pvRead opa opb rest (.inr rfl),
    fun _ opa opb s rest hop h => step_of_bits_above_op s opa opb rest .pvRead (by decide) hop h,
    fun s t h => exec_pvRead_twice h, ?_, ?_⟩
  · intro k s t h
    obtain rfl := Host.Outcome.next.inj ((exec_pvKey k s).symm.trans h)
    exact exec_pvRead_of_kv rfl
  · intro s t hs h
    obtain rfl := Host.Outcome.next.inj ((exec_pvReset s).symm.trans h)
    exact exec_pvRead_of_kv hs

/-- Settles O42: the chain is the model's own, its named steps written out; the trace by evaluation. -/
theorem gfmulStepByStep : Obligations.GfmulStepByStep :=
  ⟨fun _ _ => rfl, by decide, by decide, by decide⟩

end Sys2Proof.Machine
end

/-! The tag comparison family of statements (42_tagcmp.md R73, R75, R76): the command `TAG.EQ` and what its response tells. -/

section

namespace Sys2Proof.Machine

/-- `TAG.EQ` only answers, and its answer is a function of whether the tags are equal (R73). -/
theorem exec_tagEq (x y : Lane) (s : State) : exec (.tagEq x y) s = .next (s.respond .ok (if x = y then 1#128 else 0#128)) := by
  have hres : (equalBit x y).setWidth 128 = if x = y then 1#128 else 0#128 := by simpa using setWidth_equalBit x y
  rw [exec, execTagEq, succeed, hres]

/-- Tags alike in being equal or not are answered alike. -/
theorem exec_tagEq_congr {x y x' y' : Lane} (s : State) (h : x = y ↔ x' = y') :
    exec (.tagEq x y) s = exec (.tagEq x' y') s := by
  simp only [exec_tagEq, h]

/-- One bit set to a lane's width leaves the bits above it clear. -/
theorem getLsbD_setWidth_bit (b : BitVec 1) {j : Nat} (hj : 1 ≤ j) : (b.setWidth 128).getLsbD j = false := by
  rw [BitVec.getLsbD_setWidth, BitVec.getLsbD_of_ge b j hj, Bool.and_false]

/-! ## The statements of the family -/

/-- Settles O32: `exec_tagEq`, reached by the word 0x6 (`step_ofFields`) and by no other of its opcode
(`step_of_bits_above_op`); the operands exchanged are equal exactly when they were (`exec_tagEq_congr`). -/
theorem tagEqCommand : Obligations.TagEqCommand :=
  ⟨exec_tagEq,
    fun opa opb s rest => (step_ofFields s 0#5 .tagEq opa opb rest (.inr rfl)).trans (exec_tagEq opa opb _),
    fun _ opa opb s rest hop h => step_of_bits_above_op s opa opb rest .tagEq (by decide) hop h,
    equalBit_eq, fun _ _ s => exec_tagEq_congr s eq_comm⟩

/-- Settles O33: the answer depends on the equality of the tags only (`exec_tagEq_congr`), and its result is one bit set to
the width of a lane. -/
theorem tagEqRevealsOneBit : Obligations.TagEqRevealsOneBit :=
  ⟨fun _ _ _ _ s h => exec_tagEq_congr s h,
    fun x y s => ⟨_, _, exec_eq_after (.tagEq x y) s, after_responses .., fun _ hj => getLsbD_setWidth_bit (equalBit x y) hj⟩⟩

end Sys2Proof.Machine
end

/-! The host sequences family of statements (44_host_sequences.md R84): the length trailer. -/

section

namespace Sys2Proof.Machine

/-! ## The bytes of two halves side by side -/

/-- The low half holds bytes 0 to 7 of a lane. -/
theorem byteAt_append_low (hi lo : Half) {i : Nat} (h : i < 8) : byteAt (hi ++ lo) i = lo.extractLsb' (8 * i) 8 :=
  BitVec.extractLsb'_append_eq_of_add_le (by omega)

/-- The high half holds bytes 8 to 15 of a lane. -/
theorem byteAt_append_high (hi lo : Half) (i : Nat) : byteAt (hi ++ lo) (8 + i) = hi.extractLsb' (8 * i) 8 := by
  have hstart : 8 * (8 + i) - 64 = 8 * i := by omega
  rw [byteAt, BitVec.extractLsb'_append_eq_of_le (by omega), hstart]

/-! ## The bit length (R84, R88) -/

/-- Below 2^61 bytes the trailer's field holds the whole bit length. -/
theorem toNat_bitLength {data : List Byte} (h : data.length < 2 ^ 61) : (bitLength data).toNat = 8 * data.length := by
  rw [bitLength, BitVec.toNat_ofNat, Nat.mod_eq_of_lt (by omega)]

/-- Settles O54: the trailer's lane is the two lengths side by side (`byteAt_append_low`, `byteAt_append_high`), and R88's
ceiling of 2^36 bytes keeps the bit lengths within their fields (`toNat_bitLength`); the example
by evaluation. -/
theorem lengthTrailer : Obligations.LengthTrailer :=
  ⟨fun abits pbits => ⟨pbits ++ abits, rfl, fun i hi => ⟨byteAt_append_low pbits abits hi, byteAt_append_high pbits abits i⟩⟩,
    fun _ hlen => toNat_bitLength (by omega), by decide⟩

end Sys2Proof.Machine
end

/-! The exceptions family of statements (60_exceptions.md R93, R94, R96): which commands end in which error, and that an error
changes nothing. -/

section

namespace Sys2Proof.Machine

/-! ## The answer seen in the list of responses -/

/-- The response an effect adds is its status and its result. -/
theorem st_res_of_after_responses {s : State} {a : Effect} {st : Status} {res : Lane}
    (h : (s.after a).responses = s.responses ++ [⟨st, res⟩]) : a.st = st ∧ a.res = res :=
  Response.mk.inj (List.singleton_inj.mp (List.append_cancel_left h))

/-- The status a command answers is that of its effect. -/
theorem effect_st_of_exec {i : Instr} {s t : State} {st : Status} {res : Lane} (ht : exec i s = .next t)
    (hr : t.responses = s.responses ++ [⟨st, res⟩]) : (effect s.key s.acc s.kv i).st = st := by
  rw [exec_next ht] at hr
  exact (st_res_of_after_responses hr).1

/-! ## Where errors come from -/

/-- The two errors of a command and what each of them needs: a length above 16 (R93), or an accumulator command without a
key (R94). -/
theorem effect_error_cases {key acc : Lane} {kv : Bool} {i : Instr} {e : ErrorCode} (h : (effect key acc kv i).st = .error e) :
    (e = .errLen ∧ ∃ n d, i = .pvAbsorb n d ∧ 16 < n.toNat) ∨
      (e = .errNoKey ∧ kv = false ∧ (i = .pvRead ∨ ∃ n d, i = .pvAbsorb n d ∧ n.toNat ≤ 16)) := by
  cases i with
  | pvAbsorb n d =>
    rcases Nat.lt_or_ge 16 n.toNat with hn | hn
    · rw [effect_pvAbsorb_of_long key acc kv d hn] at h
      exact .inl ⟨(Status.error.inj h).symm, n, d, rfl, hn⟩
    · cases kv with
      | false =>
        rw [effect_pvAbsorb_of_no_kv key acc d hn] at h
        exact .inr ⟨(Status.error.inj h).symm, rfl, .inr ⟨n, d, rfl, hn⟩⟩
      | true =>
        simp only [effect, Nat.not_lt.mpr hn, if_false, Bool.true_eq_false] at h
        split_ifs at h
  | pvRead =>
    cases kv with
    | false => exact .inr ⟨(Status.error.inj h).symm, rfl, .inl rfl⟩
    | true => cases h
  | clmul a b => cases h
  | pvKey k => cases h
  | pvReset => cases h
  | tagEq x y => cases h

/-- A command that ends in an error has the effect of an error: the registers as it found them, and a zero result (R96). -/
theorem effect_eq_error {key acc : Lane} {kv : Bool} {i : Instr} {e : ErrorCode} (h : (effect key acc kv i).st = .error e) :
    effect key acc kv i = .error e key acc kv := by
  rcases effect_error_cases h with ⟨rfl, n, d, rfl, hn⟩ | ⟨rfl, rfl, rfl | ⟨n, d, rfl, hn⟩⟩
  · exact effect_pvAbsorb_of_long key acc kv d hn
  · exact effect_pvRead_of_no_kv key acc
  · exact effect_pvAbsorb_of_no_kv key acc d hn

/-- The same of a request frame, whose word may be reserved. -/
theorem frameEffect_eq_error {key acc : Lane} {kv : Bool} {f : Request} {e : ErrorCode}
    (h : (frameEffect key acc kv f).st = .error e) : frameEffect key acc kv f = .error e key acc kv := by
  rcases hf : decode f with d | i
  · simp only [frameEffect, hf] at h ⊢
    rw [← Status.error.inj h]
  · rw [frameEffect_of_decode hf] at h ⊢
    exact effect_eq_error h

/-! ## The statements of the family -/

/-- Settles O9: the answer is `exec_pvAbsorb_of_long`; of the two errors of a command only the one of a long chunk is `ERR_LEN`
(`effect_error_cases`), and a length of five bits is at most 31. -/
theorem lengthErrorExactlyAboveSixteen : Obligations.LengthErrorExactlyAboveSixteen := by
  refine ⟨fun n d s hn => exec_pvAbsorb_of_long s d hn, fun i s t res ht hr => ?_⟩
  rcases effect_error_cases (effect_st_of_exec ht hr) with ⟨-, n, d, hi, hn⟩ | ⟨hcode, -⟩
  · exact ⟨n, d, hi, hn, Nat.le_of_lt_succ n.isLt⟩
  · cases hcode

/-- Settles O10: the answers are `exec_pvAbsorb_of_no_kv` and `exec_pvRead_of_no_kv`; of the two errors of a command only the
one of a missing key is `ERR_NOKEY` (`effect_error_cases`). -/
theorem noKeyErrorExactlyWithoutKey : Obligations.NoKeyErrorExactlyWithoutKey := by
  refine ⟨fun n d s hs hn => exec_pvAbsorb_of_no_kv hs d hn, fun s hs => exec_pvRead_of_no_kv hs, fun i s t res ht hr => ?_⟩
  rcases effect_error_cases (effect_st_of_exec ht hr) with ⟨hcode, -⟩ | ⟨-, hkv⟩
  · cases hcode
  · exact hkv

/-- Settles O11: a step on a presented frame is an effect (`step_presenting`), and one that answers an error is the effect of
that error (`frameEffect_eq_error`). -/
theorem errorHasNoEffect : Obligations.ErrorHasNoEffect := by
  intro s t f rest e res ht hr
  obtain rfl := Host.Outcome.next.inj ((step_presenting s f rest).symm.trans ht)
  obtain ⟨hst, hres⟩ := st_res_of_after_responses (s := s.setInputs rest) hr
  rw [frameEffect_eq_error hst] at hres ⊢
  exact ⟨hres.symm, rfl, rfl, rfl, rfl⟩

end Sys2Proof.Machine
end

/-! The other statements, first part (30_encoding.md R32 to R37): the encoder against the decoder, and the opcode table. -/

section

namespace Sys2Proof.Machine

/-! ## The encoder -/

/-- The encoder writes the bits a command uses as it found them (R35). -/
theorem sameOperands_encode_instr (op : Opcode) (f : Request) :
    sameOperands op (op.instr f).lenField (encode (op.instr f)) f := by
  cases op with
  | clmul => exact ⟨lo_setWidth _, lo_setWidth _⟩
  | pvKey => rfl
  | pvReset => trivial
  | pvAbsorb => exact fun _ _ => rfl
  | pvRead => trivial
  | tagEq => exact ⟨rfl, rfl⟩

/-! ## The opcode table -/

/-- The row of opcode_table.json for an opcode: its code with no length, and a mask that leaves the length free in `PV.ABSORB`. -/
def opcodeRow (op : Opcode) : OpcodeRow where
  op := op
  pattern := CommandWord.ofFields 0#5 op.bits
  mask := if op = .pvAbsorb then 0xFFFFFE0F#32 else 0xFFFFFFFF#32

/-- The table has the one row of each opcode, and no other. -/
theorem mem_opcodeTable_iff (r : OpcodeRow) : r ∈ opcodeTable ↔ r = opcodeRow r.op := by
  constructor
  · intro h
    have hrows : ∀ q ∈ opcodeTable, q = opcodeRow q.op := by decide
    exact hrows r h
  · intro h
    rw [h]
    cases r.op <;> decide

/-- Words side by side are equal part by part. -/
theorem append_inj {m n : Nat} {x x' : BitVec m} {y y' : BitVec n} : x ++ y = x' ++ y' ↔ x = x' ∧ y = y' := by
  constructor
  · intro h
    have hx := congrArg (BitVec.extractLsb' n m) h
    have hy := congrArg (BitVec.extractLsb' 0 n) h
    exact ⟨by simpa only [BitVec.extractLsb'_append_eq_left] using hx, by simpa only [BitVec.extractLsb'_append_eq_right] using hy⟩
  · rintro ⟨rfl, rfl⟩
    rfl

/-- The mask of `PV.ABSORB`'s row clears the length and keeps the other fields. -/
theorem and_pvAbsorb_mask (cw : CommandWord) :
    cw &&& 0xFFFFFE0F#32 = (CommandWord.rsv cw ++ 0#5) ++ CommandWord.op cw := by
  have hmask : 0xFFFFFE0F#32 = (BitVec.allOnes 23 ++ 0#5) ++ BitVec.allOnes 4 := by decide
  conv_lhs => rw [commandWord_eq_fields cw, hmask, BitVec.and_append, BitVec.and_append]
  rw [BitVec.and_allOnes, BitVec.and_allOnes, BitVec.and_zero]

/-- A row covers the words the decoder's three tests let through to its opcode (R36, R37). -/
theorem covers_opcodeRow_iff (op : Opcode) (cw : CommandWord) :
    (opcodeRow op).covers cw = true ↔
      CommandWord.rsv cw = 0#23 ∧ CommandWord.op cw = op.bits ∧ (op = .pvAbsorb ∨ CommandWord.len cw = 0#5) := by
  rw [OpcodeRow.covers, decide_eq_true_iff, opcodeRow, CommandWord.ofFields]
  by_cases hop : op = .pvAbsorb
  · rw [if_pos hop, and_pvAbsorb_mask, append_inj, append_inj]
    simp [hop]
  · have hones : cw &&& 0xFFFFFFFF#32 = cw := BitVec.and_allOnes
    rw [if_neg hop, hones]
    conv_lhs => rw [commandWord_eq_fields cw, append_inj, append_inj, and_assoc, and_comm (a := CommandWord.len cw = 0#5)]
    simp [hop]

/-- The decoder accepts exactly the words of a command's row. -/
theorem decode_ok_iff_covers (f : Request) (op : Opcode) :
    (∃ i, decode f = .ok i ∧ i.opcode = op) ↔ (opcodeRow op).covers f.cw = true := by
  rw [covers_opcodeRow_iff]
  constructor
  · rintro ⟨i, hi, rfl⟩
    obtain ⟨hrsv, hop, hlen, -⟩ := decode_eq_ok hi
    refine ⟨hrsv, hop, ?_⟩
    rw [hlen]
    cases i with
    | pvAbsorb n d => exact .inl rfl
    | _ => exact .inr rfl
  · rintro ⟨hrsv, hop, hlen⟩
    exact ⟨_, decode_of_fields f.opa f.opb hrsv hop hlen, opcode_instr ..⟩

/-- No word is covered by the rows of two opcodes. -/
theorem opcode_unique_of_covers {o p : Opcode} {cw : CommandWord} (ho : (opcodeRow o).covers cw = true)
    (hp : (opcodeRow p).covers cw = true) : o = p := by
  obtain ⟨-, ho, -⟩ := (covers_opcodeRow_iff o cw).mp ho
  obtain ⟨-, hp, -⟩ := (covers_opcodeRow_iff p cw).mp hp
  exact bits_injective (ho.symm.trans hp)

/-! ## The statements -/

/-- Settles O1: the encoded word has the fields the decoder reads, and its lanes the operands (`decode_encode`). -/
theorem decodeEncodeRoundTrip : Obligations.DecodeEncodeRoundTrip := decode_encode

/-- Settles O2: an accepted word is its length and opcode alone (`decode_eq_ok`), and the encoder keeps the operand bits
(`sameOperands_encode_instr`). -/
theorem encodeDecodeKeepsUsedBits : Obligations.EncodeDecodeKeepsUsedBits := by
  intro f i hi
  obtain ⟨hrsv, hop, hlen, hinstr⟩ := decode_eq_ok hi
  constructor
  · rw [commandWord_eq_ofFields hrsv, hop, hlen]
    rfl
  · have h := sameOperands_encode_instr i.opcode f
    rwa [← hinstr] at h

/-- Settles O4: row by row, a row covering the words its command has (`decode_ok_iff_covers`) and no others
(`opcode_unique_of_covers`). -/
theorem decodeAgreesWithOpcodeTable : Obligations.DecodeAgreesWithOpcodeTable := by
  constructor
  · intro f op
    rw [decode_ok_iff_covers]
    constructor
    · exact fun h => ⟨opcodeRow op, (mem_opcodeTable_iff _).mpr rfl, rfl, h⟩
    · rintro ⟨r, hr, rfl, h⟩
      rwa [← (mem_opcodeTable_iff r).mp hr]
  · intro cw r hr q hq hrcw hqcw
    rw [mem_opcodeTable_iff] at hr hq
    rw [hr] at hrcw
    rw [hq] at hqcw
    rw [hr, hq, opcode_unique_of_covers hrcw hqcw]

/-- Settles O3: each frame is closed, so the decoder evaluates on it. -/
theorem writtenWordsDecode : Obligations.WrittenWordsDecode :=
  ⟨rfl, rfl, rfl, rfl, rfl, rfl, rfl, rfl, rfl, rfl⟩

/-- Settles O7: `step_of_decode` for a command's word, `step_of_reserved` for the others. -/
theorem stepRunsDecodedCommand : Obligations.StepRunsDecodedCommand := by
  intro s f rest h
  rw [eq_presenting h]
  exact ⟨fun i hi => step_of_decode s rest hi, fun e he => step_of_reserved s rest ((decode_error_iff_reserved f).mp ⟨e, he⟩)⟩

end Sys2Proof.Machine
end

/-! The other statements, second part (10_state.md R18, R19, 60_exceptions.md R91, R97, R104, 70_reset_and_hazards.md R105): what
every command and every step keeps. -/

section

namespace Sys2Proof.Machine

/-! ## What a command writes and reads (R10, R18) -/

theorem effect_key (key acc : Lane) (kv : Bool) (i : Instr) :
    (effect key acc kv i).key = key ∨ i = .pvKey (effect key acc kv i).key := by
  cases i with
  | pvKey k => exact .inr rfl
  | pvAbsorb n d => left; simp only [effect]; split_ifs <;> rfl
  | pvRead => left; simp only [effect]; split_ifs <;> rfl
  | clmul a b => exact .inl rfl
  | pvReset => exact .inl rfl
  | tagEq x y => exact .inl rfl

theorem effect_acc (key acc : Lane) (kv : Bool) (i : Instr) :
    (effect key acc kv i).acc = acc ∨ i.opcode = .pvKey ∨ i.opcode = .pvReset ∨ i.opcode = .pvAbsorb := by
  cases i with
  | pvKey k => exact .inr (.inl rfl)
  | pvReset => exact .inr (.inr (.inl rfl))
  | pvAbsorb n d => exact .inr (.inr (.inr rfl))
  | pvRead => left; simp only [effect]; split_ifs <;> rfl
  | clmul a b => exact .inl rfl
  | tagEq x y => exact .inl rfl

/-- The response of a command, without the registers it leaves. -/
def Effect.response (e : Effect) : Response := ⟨e.st, e.res⟩

/-- The response is a function of `KV` in the two commands that need a key, of `ACC` in `PV.READ`, and never of `KEY`. -/
theorem effect_response_congr {key acc key' acc' : Lane} {kv kv' : Bool} {i : Instr} (hacc : i.opcode = .pvRead → acc = acc')
    (hkv : i.opcode = .pvRead ∨ i.opcode = .pvAbsorb → kv = kv') :
    (effect key acc kv i).response = (effect key' acc' kv' i).response := by
  cases i with
  | pvAbsorb n d => rw [hkv (.inr rfl)]; simp only [effect]; split_ifs <;> rfl
  | pvRead => rw [hkv (.inl rfl), hacc rfl]; simp only [effect]; split_ifs <;> rfl
  | clmul a b => rfl
  | pvKey k => rfl
  | pvReset => rfl
  | tagEq x y => rfl

/-- A key once loaded stays loaded. -/
theorem effect_kv_of_kv (key acc : Lane) (i : Instr) : (effect key acc true i).kv = true :=
  (effect_kv key acc true i).elim id And.right

/-- `OK` is the answer of a well-formed command whose key is there, and of no other (R91). -/
theorem effect_st_eq_ok_iff (i : Instr) (s : State) :
    (effect s.key s.acc s.kv i).st = .ok ↔ i.wellFormed = true ∧ Instr.keyReady i s = true := by
  cases i with
  | pvAbsorb n d =>
    simp only [Instr.wellFormed, Instr.keyReady, decide_eq_true_iff, effect]
    split_ifs <;> simp_all [Effect.error]
  | pvRead =>
    simp only [Instr.wellFormed, Instr.keyReady, effect]
    split_ifs <;> simp_all [Effect.error]
  | clmul a b => exact iff_of_true rfl ⟨rfl, rfl⟩
  | pvKey k => exact iff_of_true rfl ⟨rfl, rfl⟩
  | pvReset => exact iff_of_true rfl ⟨rfl, rfl⟩
  | tagEq x y => exact iff_of_true rfl ⟨rfl, rfl⟩

theorem keyReady_of_kv (i : Instr) {s : State} (hs : s.kv = true) : Instr.keyReady i s = true := by
  cases i with
  | pvAbsorb n d => exact hs
  | pvRead => exact hs
  | _ => rfl

/-! ## The invariant (R11, R12, R13, R96) -/

/-- Registers that are zero until a key is loaded stay so: without a key no command writes anything but zero. -/
theorem effect_keeps_zero {key acc : Lane} {kv : Bool} {i : Instr} (h : kv = false → key = 0#128 ∧ acc = 0#128)
    (hkv : (effect key acc kv i).kv = false) : (effect key acc kv i).key = 0#128 ∧ (effect key acc kv i).acc = 0#128 := by
  have hno : kv = false := by
    cases kv with
    | false => rfl
    | true => exact absurd ((effect_kv_of_kv key acc i).symm.trans hkv) (by decide)
  obtain ⟨rfl, rfl⟩ := h hno
  subst hno
  cases i with
  | pvKey k => cases hkv
  | pvAbsorb n d => simp only [effect]; split_ifs <;> exact ⟨rfl, rfl⟩
  | pvRead => exact ⟨rfl, rfl⟩
  | clmul a b => exact ⟨rfl, rfl⟩
  | pvReset => exact ⟨rfl, rfl⟩
  | tagEq x y => exact ⟨rfl, rfl⟩

theorem frameEffect_keeps_zero {key acc : Lane} {kv : Bool} {f : Request} (h : kv = false → key = 0#128 ∧ acc = 0#128)
    (hkv : (frameEffect key acc kv f).kv = false) :
    (frameEffect key acc kv f).key = 0#128 ∧ (frameEffect key acc kv f).acc = 0#128 := by
  rcases hf : decode f with e | i
  · simp only [frameEffect, hf] at hkv ⊢
    exact h hkv
  · rw [frameEffect_of_decode hf] at hkv ⊢
    exact effect_keeps_zero h hkv

/-- An error response carries a zero result. -/
theorem frameEffect_res_of_error {key acc : Lane} {kv : Bool} {f : Request} (h : (frameEffect key acc kv f).st ≠ .ok) :
    (frameEffect key acc kv f).res = 0#128 := by
  rcases hst : (frameEffect key acc kv f).st with _ | e
  · exact absurd hst h
  · rw [frameEffect_eq_error hst]
    rfl

/-- The block after a request frame meets the invariant if it met it before. -/
theorem inv_after_frame {s : State} (h : s.Inv) (f : Request) (rest : List HostInput) :
    ((s.setInputs rest).after (frameEffect s.key s.acc s.kv f)).Inv := by
  obtain ⟨hregs, hres⟩ := h
  refine ⟨frameEffect_keeps_zero hregs, fun r hr => ?_⟩
  rw [after_responses, setInputs_responses, List.mem_append, List.mem_singleton] at hr
  rcases hr with hr | rfl
  · exact hres r hr
  · exact frameEffect_res_of_error

/-! ## States no host can tell apart (R13, R19) -/

/-- The same response, and the same registers but for `KEY` and `ACC` while `KV` is 0. -/
def Effect.indistinguishable (e e' : Effect) : Prop :=
  e.response = e'.response ∧ (e = e' ∨ (e.kv = false ∧ e'.kv = false))

/-- Without a key, a command's effect does not show what `KEY` and `ACC` hold: `PV.KEY` overwrites both, and every other leaves
`KV` at 0. -/
theorem effect_indistinguishable (key acc key' acc' : Lane) (i : Instr) :
    (effect key acc false i).indistinguishable (effect key' acc' false i) := by
  cases i with
  | pvKey k => exact ⟨rfl, .inl rfl⟩
  | pvAbsorb n d => simp only [effect]; split_ifs <;> exact ⟨rfl, .inr ⟨rfl, rfl⟩⟩
  | pvRead => exact ⟨rfl, .inr ⟨rfl, rfl⟩⟩
  | clmul a b => exact ⟨rfl, .inr ⟨rfl, rfl⟩⟩
  | pvReset => exact ⟨rfl, .inr ⟨rfl, rfl⟩⟩
  | tagEq x y => exact ⟨rfl, .inr ⟨rfl, rfl⟩⟩

theorem frameEffect_indistinguishable (key acc key' acc' : Lane) (f : Request) :
    (frameEffect key acc false f).indistinguishable (frameEffect key' acc' false f) := by
  rcases hf : decode f with e | i
  · simp only [frameEffect, hf]
    exact ⟨rfl, .inr ⟨rfl, rfl⟩⟩
  · rw [frameEffect_of_decode hf, frameEffect_of_decode hf]
    exact effect_indistinguishable key acc key' acc' i

theorem after_indistinguishable {s s' : State} {e e' : Effect} (hin : s.inputs = s'.inputs) (hresp : s.responses = s'.responses)
    (he : e.indistinguishable e') : (s.after e).indistinguishable (s'.after e') := by
  obtain ⟨hr, hregs⟩ := he
  have hall : (s.after e).responses = (s'.after e').responses := congrArg₂ (fun rs r => rs ++ [r]) hresp hr
  refine ⟨hin, hall, hregs.imp_left ?_⟩
  rintro rfl
  exact State.eq_of_fields rfl rfl rfl hin hall

/-- Both states take the same input, to the same response and to states no host can tell apart. -/
theorem step_indistinguishable {s s' : State} (h : s.indistinguishable s') :
    ∃ t t', step s = .next t ∧ step s' = .next t' ∧ t.indistinguishable t' := by
  obtain ⟨hin, hresp, rfl | ⟨hkv, hkv'⟩⟩ := h
  · obtain ⟨-, hs⟩ | ⟨f, rest, -, hs⟩ | ⟨p, rest, -, hs⟩ := step_cases s <;>
      exact ⟨_, _, hs, hs, rfl, rfl, .inl rfl⟩
  · obtain ⟨hnil, hs⟩ | ⟨f, rest, hf, hs⟩ | ⟨p, rest, hp, hs⟩ := step_cases s
    · exact ⟨s, s', hs, by simp only [step, ← hin, hnil], hin, hresp, .inr ⟨hkv, hkv'⟩⟩
    · rw [hkv] at hs
      refine ⟨_, _, hs, ?_, after_indistinguishable (s' := s'.setInputs rest) rfl hresp
        (frameEffect_indistinguishable s.key s.acc s'.key s'.acc f)⟩
      rw [← hkv', eq_presenting (hin.symm.trans hf)]
      exact step_presenting s' f rest
    · exact ⟨_, _, hs, step_hardReset (hin.symm.trans hp), rfl, hresp, .inr ⟨rfl, rfl⟩⟩

/-- So it goes on for any number of steps. -/
theorem run_indistinguishable (n : Nat) {s s' : State} (h : s.indistinguishable s') :
    ∃ t t', Host.Core.run Sys2Proof.core n s = .next t ∧ Host.Core.run Sys2Proof.core n s' = .next t' ∧ t.indistinguishable t' := by
  induction n generalizing s s' with
  | zero => exact ⟨s, s', rfl, rfl, h⟩
  | succ n ih =>
    obtain ⟨t, t', ht, ht', htt'⟩ := step_indistinguishable h
    rw [run_succ n ht, run_succ n ht']
    exact ih htt'

/-! ## Runs without an error (R104) -/

theorem errorFree_after (s : State) (e : Effect) : (s.after e).errorFree = (s.errorFree && decide (e.st = .ok)) := by
  simp [State.errorFree]

/-- Well-formed commands with a key loaded are all answered `OK`, keep the key, and leave the host's other inputs to come. -/
theorem afterCommands_errorFree {is : List Instr} (hwf : ∀ i ∈ is, i.wellFormed = true) {s : State} (hkv : s.kv = true)
    (hfree : s.errorFree = true) :
    (s.afterCommands is).errorFree = true ∧ (s.afterCommands is).kv = true ∧ (s.afterCommands is).inputs = s.inputs := by
  induction is generalizing s with
  | nil => exact ⟨hfree, hkv, rfl⟩
  | cons i is ih =>
    have hok : (effect s.key s.acc s.kv i).st = .ok :=
      (effect_st_eq_ok_iff i s).mpr ⟨hwf i (by simp), keyReady_of_kv i hkv⟩
    rw [afterCommands_cons]
    refine ih (fun j hj => hwf j (by simp [hj])) ?_ ?_
    · rw [after_kv, hkv]
      exact effect_kv_of_kv s.key s.acc i
    · rw [errorFree_after, hfree, hok]
      rfl

/-! ## The statements -/

/-- Settles O23: a waiting step changes nothing and a hardware reset clears both registers; a request frame keeps the invariant
(`inv_after_frame`). -/
theorem stepKeepsInvariant : Obligations.StepKeepsInvariant := by
  intro s t hinv ht
  obtain ⟨-, hs⟩ | ⟨f, rest, -, hs⟩ | ⟨p, rest, -, hs⟩ := step_cases s
  · obtain rfl := Host.Outcome.next.inj (hs.symm.trans ht)
    exact hinv
  · obtain rfl := Host.Outcome.next.inj (hs.symm.trans ht)
    exact inv_after_frame hinv f rest
  · obtain rfl := Host.Outcome.next.inj (hs.symm.trans ht)
    exact ⟨fun _ => ⟨rfl, rfl⟩, hinv.2⟩

/-- Settles O24: the registers are zero and nothing is answered. -/
theorem resetMeetsInvariant : Obligations.ResetMeetsInvariant :=
  ⟨fun _ => ⟨rfl, rfl⟩, fun _ hr => absurd hr List.not_mem_nil⟩

/-- Settles O58: the step of each state is the one of `step_indistinguishable`. -/
theorem stepKeepsIndistinguishable : Obligations.StepKeepsIndistinguishable := by
  intro s s' t t' h ht ht'
  obtain ⟨u, u', hu, hu', huu'⟩ := step_indistinguishable h
  obtain rfl := Host.Outcome.next.inj (hu.symm.trans ht)
  obtain rfl := Host.Outcome.next.inj (hu'.symm.trans ht')
  exact huu'

/-- Settles O22: states with `KV` = 0 that differ in `KEY` and `ACC` only are indistinguishable, and stay so
(`run_indistinguishable`). -/
theorem resetValuesUnobservable : Obligations.ResetValuesUnobservable := by
  refine ⟨⟨rfl, rfl, rfl⟩, fun n s s' hkv hkv' hin hresp => ?_⟩
  obtain ⟨t, t', ht, ht', -, htt', -⟩ := run_indistinguishable n ⟨hin, hresp, .inr ⟨hkv, hkv'⟩⟩
  exact ⟨t, t', ht, ht', htt'⟩

/-- Settles O12: the error left the registers as they were (`errorHasNoEffect`), so the next request finds the same ones. -/
theorem errorsDoNotStick : Obligations.ErrorsDoNotStick := by
  intro s t u f g rest e res r ht hrt hu hru
  obtain ⟨rfl, hkey, hacc, hkv, hin⟩ := errorHasNoEffect s t f _ e res ht hrt
  obtain rfl := Host.Outcome.next.inj ((step_presenting s g rest).symm.trans hu)
  obtain rfl := List.singleton_inj.mp (List.append_cancel_left hru)
  rw [eq_presenting hin, step_presenting, hkey, hacc, hkv]
  refine congrArg _ (State.eq_of_fields rfl rfl rfl rfl ?_)
  rw [after_responses, setInputs_responses, hrt, List.append_assoc]
  rfl

/-- Settles O13: the four statuses one by one, and the sixteen codes. -/
theorem statusCodes : Obligations.StatusCodes := by
  refine ⟨rfl, rfl, rfl, rfl, ?_, by decide⟩
  rintro (_ | _ | _ | _) <;> decide

/-- Settles O15: every case of `step_cases` is a next state, and so is `exec_eq_after`. -/
theorem nothingStopsTheBlock : Obligations.NothingStopsTheBlock := by
  refine ⟨fun s => ?_, fun i s => ⟨_, exec_eq_after i s⟩⟩
  obtain ⟨-, hs⟩ | ⟨f, rest, -, hs⟩ | ⟨p, rest, -, hs⟩ := step_cases s <;> exact ⟨_, hs⟩

/-- Settles O16: the first case of `step`. -/
theorem idleStepChangesNothing : Obligations.IdleStepChangesNothing := by
  intro s h
  simp only [step, h]

/-- Settles O18: register by register (`effect_key`, `effect_acc`, `effect_kv`). -/
theorem onlyListedCommandsWriteState : Obligations.OnlyListedCommandsWriteState := by
  intro i s t h
  rw [exec_next h]
  refine ⟨rfl, ⟨_, rfl⟩, fun hne => ?_, fun hne => ?_, fun hne => ?_⟩
  · exact congrArg Instr.opcode ((effect_key s.key s.acc s.kv i).resolve_left hne)
  · exact (effect_acc s.key s.acc s.kv i).resolve_left hne
  · exact ((effect_kv s.key s.acc s.kv i).resolve_left hne).1

/-- Settles O19: the response of each state is that of the command's effect (`effect_response_congr`). -/
theorem noResponseDependsOnKey : Obligations.NoResponseDependsOnKey := by
  intro i s s' hacc hkv
  refine ⟨_, _, _, exec_eq_after i s, exec_eq_after i s', rfl, ?_⟩
  exact congrArg (fun r => s'.responses ++ [r]) (effect_response_congr hacc hkv).symm

/-- Settles O21: the reset is `step_hardReset`; a command neither clears `KV` (`effect_kv_of_kv`) nor changes `KEY` unless it is
`PV.KEY` (`effect_key`). -/
theorem hardwareReset : Obligations.HardwareReset := by
  refine ⟨fun s p rest h => step_hardReset h, fun i s t h => ?_, exec_pvReset⟩
  rw [exec_next h]
  refine ⟨fun hkv => ?_, fun hne => (effect_key s.key s.acc s.kv i).resolve_left hne⟩
  rw [after_kv, hkv]
  exact effect_kv_of_kv s.key s.acc i

/-- Settles O25: the status is that of the command's effect (`effect_st_eq_ok_iff`). -/
theorem okExactlyWhenWellFormedAndKeyed : Obligations.OkExactlyWhenWellFormedAndKeyed :=
  fun i s => ⟨_, _, exec_eq_after i s, after_responses .., effect_st_eq_ok_iff i s⟩

/-- Settles O26: the commands run to the end (`run_issue`), each answered `OK` (`afterCommands_errorFree`). -/
theorem wellFormedCommandsRunWithoutError : Obligations.WellFormedCommandsRunWithoutError :=
  fun s is hkv hfree hwf => ⟨_, run_issue is s, afterCommands_errorFree hwf hkv hfree⟩

end Sys2Proof.Machine
end

/-! The other statements, third part (30_encoding.md R43, 41_polyval.md R67 to R69, 44_host_sequences.md R80, R81, R86): what the
host's sequences leave and return, and the encoded form of a request. -/

section

namespace Sys2Proof.Machine

/-! ## Running a sequence (R68, R80) -/

/-- Commands that absorb blocks leave the block as having absorbed them, one response each. -/
theorem run_issue_of_absorbs {is : List Instr} {blocks : List Lane} (h : Absorbs is blocks) {s : State} (hs : s.kv = true) :
    Host.Core.run Sys2Proof.core is.length (s.issue is) = .next (s.absorbed is.length blocks) :=
  (run_issue is s).trans (congrArg _ (h s hs))

theorem length_pvAbsorbM (data : List Byte) : (pvAbsorbM data).length = (data.length + 15) / 16 := by
  unfold pvAbsorbM
  split
  next hrest => simp; omega
  next hrest => simp; omega

/-! ## Splitting a string (R67) -/

/-- A piece before the split is one of the first string. -/
theorem piece_append_left (xs ys : List Byte) {j : Nat} (h : 16 * (j + 1) ≤ xs.length) : piece (xs ++ ys) j = piece xs j := by
  rw [piece, piece, List.drop_append_of_le_length (by omega), List.take_append_of_le_length (by simp; omega)]

/-- A piece from the split on is one of the second string. -/
theorem piece_append_right {xs : List Byte} (ys : List Byte) {m : Nat} (h : xs.length = 16 * m) (j : Nat) :
    piece (xs ++ ys) (m + j) = piece ys j := by
  rw [piece, piece, Nat.mul_add, ← h, List.drop_length_add_append]

/-- The whole pieces of a string in two parts, the first part made of whole pieces. -/
theorem map_piece_append {α : Type} (g : List Byte → α) {xs : List Byte} (ys : List Byte) {m : Nat} (h : xs.length = 16 * m)
    (n : Nat) :
    (List.range (m + n)).map (fun j => g (piece (xs ++ ys) j)) =
      (List.range m).map (fun j => g (piece xs j)) ++ (List.range n).map (fun j => g (piece ys j)) := by
  rw [List.range_add, List.map_append, List.map_map]
  congr 1
  · refine List.map_congr_left fun j hj => ?_
    have hj := List.mem_range.mp hj
    rw [piece_append_left xs ys (by omega)]
  · exact List.map_congr_left fun j _ => congrArg g (piece_append_right ys h j)

/-- The command for the rest of a string, if there is a rest. -/
def restCommands (data : List Byte) : List Instr :=
  if data.length % 16 = 0 then []
  else [.pvAbsorb (BitVec.ofNat 5 (data.length % 16)) (le128 (piece data (data.length / 16)))]

theorem pvAbsorbM_eq (data : List Byte) :
    pvAbsorbM data =
      (List.range (data.length / 16)).map (fun j => .pvAbsorb 16#5 (le128 (piece data j))) ++ restCommands data := rfl

/-- A string of whole pieces has no rest, and the rest after it is that of the string appended. -/
theorem pvAbsorbM_append {xs : List Byte} (ys : List Byte) (h : xs.length % 16 = 0) :
    pvAbsorbM (xs ++ ys) = pvAbsorbM xs ++ pvAbsorbM ys := by
  obtain ⟨m, hm⟩ : ∃ m, xs.length = 16 * m := ⟨xs.length / 16, by omega⟩
  have hlen : (xs ++ ys).length = 16 * m + ys.length := by rw [List.length_append, hm]
  have hdiv : (xs ++ ys).length / 16 = m + ys.length / 16 := by omega
  have hmod : (xs ++ ys).length % 16 = ys.length % 16 := by omega
  have hrest : restCommands (xs ++ ys) = restCommands ys := by
    rw [restCommands, restCommands, hmod, hdiv, piece_append_right ys hm]
  have hnone : restCommands xs = [] := if_pos h
  rw [pvAbsorbM_eq, pvAbsorbM_eq, pvAbsorbM_eq, hrest, hnone, hdiv, show xs.length / 16 = m by omega,
    map_piece_append (fun p => Instr.pvAbsorb 16#5 (le128 p)) ys hm, List.append_nil, List.append_assoc]

/-! ## The stream-cipher construction (R86) -/

/-- The comparison decides what is done with the ciphertext. -/
theorem streamDecrypt_append (mac : List Byte → List Byte → Lane) (xorStream : List Byte → List Byte) (aad ciphertext : List Byte)
    {tag : List Byte} (s : State) (htag : tag.length = 16) :
    let equal : Bool := decide (mac aad ciphertext = le128 tag)
    streamDecrypt mac xorStream aad (ciphertext ++ tag) s =
      some ⟨equal, if equal then xorStream ciphertext else ciphertext,
        { s with responses := s.responses ++ [⟨.ok, if equal then 1#128 else 0#128⟩] }⟩ := by
  obtain ⟨htake, hdrop⟩ := split_trailing (message := ciphertext) (tag := tag) htag
  have hroom : ¬ (ciphertext ++ tag).length < Config.chunkBytes := by simp [htag, Config.chunkBytes]
  intro equal
  rw [streamDecrypt, if_neg hroom, htake, hdrop]
  simp only [perform_tagCheck, Option.map_some, authenticated_bit]
  rfl

/-! ## Hexadecimal digits (R43) -/

theorem hexDigit_injective : ∀ d < 16, ∀ e < 16, hexDigit d = hexDigit e → d = e := by decide

@[simp] theorem length_hexDigits (n v : Nat) : (hexDigits n v).length = n := by
  induction n generalizing v with
  | zero => rfl
  | succ n ih => rw [hexDigits, List.length_append, ih, List.length_singleton]

/-- `n` digits tell every number they have room for. -/
theorem hexDigits_injective {n v w : Nat} (hv : v < 16 ^ n) (hw : w < 16 ^ n) (h : hexDigits n v = hexDigits n w) : v = w := by
  induction n generalizing v w with
  | zero => omega
  | succ n ih =>
    obtain ⟨hhigh, hlow⟩ := List.append_inj h (by simp)
    have hdiv : v / 16 = w / 16 := ih (by omega) (by omega) hhigh
    have hmod : v % 16 = w % 16 :=
      hexDigit_injective _ (Nat.mod_lt _ (by decide)) _ (Nat.mod_lt _ (by decide)) (List.singleton_inj.mp hlow)
    omega

/-- A word of `4 * n` bits is told by its `n` digits. -/
theorem eq_of_hexDigits_eq {n : Nat} {x y : BitVec (4 * n)} (h : hexDigits n x.toNat = hexDigits n y.toNat) : x = y := by
  have hroom : 2 ^ (4 * n) = 16 ^ n := Nat.pow_mul 2 4 n
  exact BitVec.eq_of_toNat_eq (hexDigits_injective (hroom ▸ x.isLt) (hroom ▸ y.isLt) h)

theorem encodedForm_injective {f g : Request} (h : encodedForm f = encodedForm g) : f = g := by
  obtain ⟨h, hopb⟩ := List.append_inj h (by simp)
  obtain ⟨h, -⟩ := List.append_inj h (by simp)
  obtain ⟨h, hopa⟩ := List.append_inj h (by simp)
  obtain ⟨hcw, -⟩ := List.append_inj h (by simp)
  obtain ⟨cw, opa, opb⟩ := f
  obtain rfl : cw = g.cw := eq_of_hexDigits_eq (n := 8) hcw
  obtain rfl : opa = g.opa := eq_of_hexDigits_eq (n := 32) hopa
  obtain rfl : opb = g.opb := eq_of_hexDigits_eq (n := 32) hopb
  rfl

/-! ## The statements -/

/-- Settles O50: each command absorbs its masked chunk (`absorbs_chunk`). -/
theorem absorbSequence : Obligations.AbsorbSequence := by
  intro s chunks hs hlen
  have habsorbs : Absorbs (chunks.map fun c => .pvAbsorb c.1 c.2) (chunks.map fun c => c.2 &&& maskBytes c.1.toNat) :=
    absorbs_map _ _ _ fun c hc => absorbs_chunk c.2 (hlen c hc).1 (hlen c hc).2
  have hrun := run_issue_of_absorbs habsorbs hs
  rwa [List.length_map] at hrun

/-- Settles O52: the commands absorb the padded blocks (`absorbs_pvAbsorbM`). -/
theorem absorbMAbsorbsPaddedBlocks : Obligations.AbsorbMAbsorbsPaddedBlocks :=
  ⟨length_pvAbsorbM, rfl, fun _ data hs => run_issue_of_absorbs (absorbs_pvAbsorbM data) hs⟩

/-- Settles O53: `pvAbsorbM_append`; and under the key E, which makes `gfmul` the identity, sixteen bytes 1 in two short chunks
cancel. -/
theorem rechunkingOnlyAtBlockBoundaries : Obligations.RechunkingOnlyAtBlockBoundaries :=
  ⟨fun _ ys h => pvAbsorbM_append ys h,
    Config.identityElement, List.replicate 8 1#8, List.replicate 8 1#8, rfl, rfl, by decide⟩

/-- Settles O55: the sequence runs to the end (`run_issue`) and leaves the hash (`afterCommands_sivHash`). -/
theorem sivSequenceReturnsHash : Obligations.SivSequenceReturnsHash :=
  fun s aad plaintext hs => (run_issue _ s).trans (congrArg _ (afterCommands_sivHash hs aad plaintext))

/-- Settles O56: after `PV.KEY` the one chunk absorbed into a cleared accumulator is `gfmul` of it and the key. -/
theorem gfmulThroughCommands : Obligations.GfmulThroughCommands := by
  intro s a k
  have habsorb := absorbs_chunk (n := 16#5) a (by decide) (by decide) ((((s.setKey k).setAcc 0#128).setKv true).respond .ok 0#128) rfl
  rw [paddedChunk_sixteen] at habsorb
  have hcommands : s.afterCommands (gfmulCommands a k) =
      (((((s.setKey k).setAcc 0#128).setKv true).respond .ok 0#128).afterCommands [.pvAbsorb 16#5 a]).afterCommands [.pvRead] := rfl
  refine (run_issue (gfmulCommands a k) s).trans (congrArg _ ?_)
  rw [hcommands, habsorb, afterCommands_pvRead rfl]
  simp [State.respond, State.absorbed, State.setKey, State.setAcc, State.setKv, absorbChunks]

/-- Settles O57: the digits of each field are as many as its bits need, so they tell it (`eq_of_hexDigits_eq`). -/
theorem encodedFormIsFaithful : Obligations.EncodedFormIsFaithful :=
  ⟨fun f => by simp [encodedForm], fun _ _ h => encodedForm_injective h, by decide⟩

/-- Settles O60: `streamDecrypt_append`; a buffer without room for a tag ends at the first test. -/
theorem streamDecryptComparesFirst : Obligations.StreamDecryptComparesFirst :=
  ⟨fun mac xorStream aad ciphertext _ s htag => streamDecrypt_append mac xorStream aad ciphertext s htag, fun _ => rfl,
    fun _ _ _ _ _ h => if_pos h⟩

end Sys2Proof.Machine
end

/-! The other statements, fourth part (20_memory.md R21, 40_clmul.md R46, R47, R50): numbers as polynomials over GF(2), and the
carry-less product as their product. -/

section

namespace Sys2Proof.Machine

open Polynomial

/-! ## Numbers as polynomials (R21) -/

/-- The sum of the powers of X at the set bits below `n`. -/
noncomputable def bitSum (v n : Nat) : (ZMod 2)[X] := ∑ i ∈ Finset.range n, if v.testBit i then X ^ i else 0

/-- The polynomial a number stands for: bit i is the coefficient of X^i. -/
noncomputable def toPoly (v : Nat) : (ZMod 2)[X] := bitSum v (v.log2 + 1)

theorem bitSum_succ (v n : Nat) : bitSum v (n + 1) = bitSum v n + if v.testBit n then X ^ n else 0 :=
  Finset.sum_range_succ _ n

theorem coeff_bitSum (v n i : Nat) : (bitSum v n).coeff i = if i < n ∧ v.testBit i = true then 1 else 0 := by
  induction n with
  | zero => simp [bitSum]
  | succ n ih =>
    have hlast : (if v.testBit n then X ^ n else 0 : (ZMod 2)[X]).coeff i = if i = n ∧ v.testBit i = true then 1 else 0 := by
      by_cases hbit : v.testBit n = true <;> by_cases hi : i = n <;> simp [hbit, hi, coeff_X_pow]
    rw [bitSum_succ, coeff_add, ih, hlast]
    rcases Nat.lt_trichotomy i n with h | h | h
    · simp [h, h.ne, show i < n + 1 by omega]
    · simp [h]
    · simp [h.ne', show ¬ i < n by omega, show ¬ i < n + 1 by omega]

theorem testBit_eq_false_of_log2_lt {v i : Nat} (h : v.log2 < i) : v.testBit i = false :=
  Nat.testBit_lt_two_pow (Nat.lt_log2_self.trans_le (Nat.pow_le_pow_right (by decide) h))

@[simp] theorem coeff_toPoly (v i : Nat) : (toPoly v).coeff i = if v.testBit i then 1 else 0 := by
  rw [toPoly, coeff_bitSum]
  rcases Nat.lt_or_ge v.log2 i with h | h
  · simp [testBit_eq_false_of_log2_lt h]
  · simp [show i < v.log2 + 1 by omega]

/-- The sum may run over any number of bits that holds the number. -/
theorem bitSum_of_lt {v n : Nat} (h : v < 2 ^ n) : bitSum v n = toPoly v := by
  ext i
  rw [coeff_bitSum, coeff_toPoly]
  rcases Nat.lt_or_ge i n with hi | hi
  · simp [hi]
  · simp [Nat.testBit_lt_two_pow (h.trans_le (Nat.pow_le_pow_right (by decide) hi))]

theorem toPoly_injective : Function.Injective toPoly := by
  intro u v h
  refine Nat.eq_of_testBit_eq fun i => ?_
  have hi := congrArg (fun p => p.coeff i) h
  simp only [coeff_toPoly] at hi
  cases hu : u.testBit i <;> cases hv : v.testBit i <;> simp_all

@[simp] theorem toPoly_zero : toPoly 0 = 0 := by ext i; simp

theorem toPoly_ne_zero {v : Nat} (h : v ≠ 0) : toPoly v ≠ 0 := fun h0 => h (toPoly_injective (h0.trans toPoly_zero.symm))

/-- Exclusive or is the sum. -/
@[simp] theorem toPoly_xor (u v : Nat) : toPoly (u ^^^ v) = toPoly u + toPoly v := by
  ext i
  rw [coeff_add, coeff_toPoly, coeff_toPoly, coeff_toPoly, Nat.testBit_xor]
  cases u.testBit i <;> cases v.testBit i <;> decide

/-- A left shift is the product with a power of X. -/
@[simp] theorem toPoly_shiftLeft (v n : Nat) : toPoly (v <<< n) = toPoly v * X ^ n := by
  ext i
  rw [coeff_mul_X_pow', coeff_toPoly, coeff_toPoly, Nat.testBit_shiftLeft]
  by_cases h : n ≤ i <;> simp [h]

@[simp] theorem toPoly_one : toPoly 1 = 1 := by
  ext i
  simp only [coeff_toPoly, coeff_one, Nat.testBit_one_eq_true_iff_self_eq_zero]

@[simp] theorem toPoly_two_pow (n : Nat) : toPoly (2 ^ n) = X ^ n := by
  rw [← Nat.one_shiftLeft, toPoly_shiftLeft, toPoly_one, one_mul]

/-- The degree is the place of the highest set bit. -/
theorem natDegree_toPoly {v : Nat} (h : v ≠ 0) : (toPoly v).natDegree = v.log2 := by
  refine natDegree_eq_of_le_of_coeff_ne_zero (natDegree_le_iff_coeff_eq_zero.mpr fun i hi => ?_) ?_
  · simp [testBit_eq_false_of_log2_lt hi]
  · simp [Nat.testBit_log2 h]

/-! ## Products (R45, R60) -/

theorem toPoly_polymulUpTo (u v n : Nat) : toPoly (polymulUpTo u v n) = toPoly u * bitSum v n := by
  induction n with
  | zero => simp [polymulUpTo, bitSum]
  | succ n ih =>
    rw [polymulUpTo_succ, toPoly_xor, ih, bitSum_succ, mul_add]
    cases v.testBit n <;> simp

/-- `polymul` is the product of polynomials. -/
@[simp] theorem toPoly_polymul (u v : Nat) : toPoly (polymul u v) = toPoly u * toPoly v := toPoly_polymulUpTo u v _

/-- A half shifted by at most 64 places keeps all its bits in a lane. -/
theorem toNat_setWidth_shiftLeft (a : Half) {n : Nat} (hn : n ≤ 64) : (a.setWidth 128 <<< n).toNat = a.toNat <<< n := by
  have hroom : a.toNat <<< n < 2 ^ 128 := by
    calc a.toNat <<< n = a.toNat * 2 ^ n := Nat.shiftLeft_eq ..
      _ < 2 ^ 64 * 2 ^ n := Nat.mul_lt_mul_of_pos_right a.isLt (Nat.two_pow_pos n)
      _ ≤ 2 ^ 64 * 2 ^ 64 := Nat.mul_le_mul_left _ (Nat.pow_le_pow_right (by decide) hn)
  rw [BitVec.toNat_shiftLeft, BitVec.toNat_setWidth_of_le (by decide), Nat.mod_eq_of_lt hroom]

theorem toNat_clmulUpTo (a b : Half) {n : Nat} (hn : n ≤ 64) : (clmulUpTo a b n).toNat = polymulUpTo a.toNat b.toNat n := by
  induction n with
  | zero => rfl
  | succ n ih =>
    rw [clmulUpTo_succ, polymulUpTo_succ, BitVec.toNat_xor, ih (by omega), BitVec.getLsbD]
    cases b.toNat.testBit n
    · rfl
    · simp only [if_true, toNat_setWidth_shiftLeft a (show n ≤ 64 by omega)]

/-- The carry-less product is the product of polynomials. -/
@[simp] theorem toPoly_clmul64 (a b : Half) : toPoly (clmul64 a b).toNat = toPoly a.toNat * toPoly b.toNat := by
  rw [clmul64, toNat_clmulUpTo a b (Nat.le_refl 64), toPoly_polymulUpTo, bitSum_of_lt b.isLt]

/-- A lane is told by its polynomial. -/
theorem eq_of_toPoly_eq {n : Nat} {x y : BitVec n} (h : toPoly x.toNat = toPoly y.toNat) : x = y :=
  BitVec.eq_of_toNat_eq (toPoly_injective h)

/-- Two words side by side: the upper one is multiplied by the power of X at its place. -/
@[simp] theorem toPoly_append {m n : Nat} (x : BitVec m) (y : BitVec n) :
    toPoly (x ++ y).toNat = toPoly x.toNat * X ^ n + toPoly y.toNat := by
  ext i
  rw [coeff_add, coeff_mul_X_pow', coeff_toPoly, coeff_toPoly, coeff_toPoly, BitVec.toNat_append, Nat.testBit_or,
    Nat.testBit_shiftLeft]
  rcases Nat.lt_or_ge i n with h | h
  · simp [Nat.not_le.mpr h]
  · simp [h, Nat.testBit_lt_two_pow (y.isLt.trans_le (Nat.pow_le_pow_right (by decide) h))]

/-- A lane as the polynomial of its two halves. -/
theorem toPoly_lane (v : Lane) : toPoly v.toNat = toPoly (Lane.hi v).toNat * X ^ 64 + toPoly (Lane.lo v).toNat := by
  conv_lhs => rw [lane_eq_halves v]
  exact toPoly_append ..

/-! ## The bit-serial multiplier (R46) -/

/-- A right shift by one divides by X, but for the bit that is lost. -/
theorem toPoly_shiftRight_one (v : Nat) : toPoly (v >>> 1) * X = toPoly v + if v.testBit 0 then 1 else 0 := by
  ext i
  cases i with
  | zero =>
    rw [coeff_mul_X_zero, coeff_add, coeff_toPoly]
    cases v.testBit 0
    · simp
    · simp [CharTwo.add_self_eq_zero]
  | succ i =>
    rw [coeff_mul_X, coeff_add, coeff_toPoly, coeff_toPoly, Nat.testBit_shiftRight, Nat.add_comm 1 i]
    cases v.testBit 0 <;> simp [coeff_one]

/-- One iteration of R46: `a` is added at the top when the bit that leaves the register is set. -/
theorem toPoly_serialStep (a : Half) (r : Lane) :
    toPoly (serialStep a r).toNat * X = toPoly r.toNat + if r.getLsbD 0 then toPoly a.toNat * X ^ 64 + 1 else 0 := by
  have hlow (h : Half) : (h ++ Lane.lo r).toNat.testBit 0 = r.getLsbD 0 := by
    rw [← BitVec.getLsbD, BitVec.getLsbD_append]
    simp [Lane.lo]
  rw [serialStep, BitVec.toNat_ushiftRight, toPoly_shiftRight_one, hlow, toPoly_append, toPoly_lane r]
  cases r.getLsbD 0
  · simp
  · simp only [if_true, BitVec.and_allOnes, BitVec.toNat_xor, toPoly_xor]
    ring

/-- After `n` iterations the register holds the product with the low `n` bits of `b` at the top, and the bits of `b` still to come
at the bottom; multiplied by X^n, so that nothing is divided. -/
def SerialInvariant (a b : Half) (n : Nat) (r : Lane) : Prop :=
  toPoly r.toNat * X ^ n = toPoly a.toNat * bitSum b.toNat n * X ^ 64 + (toPoly b.toNat + bitSum b.toNat n)

/-- The bit that leaves the register is the next bit of `b`. -/
theorem SerialInvariant.getLsbD_zero {a b : Half} {n : Nat} {r : Lane} (h : SerialInvariant a b n r) (hn : n < 64) :
    r.getLsbD 0 = b.getLsbD n := by
  have hbit := congrArg (fun p => p.coeff n) h
  simp only [coeff_add, coeff_mul_X_pow', coeff_toPoly, coeff_bitSum, le_refl, Nat.sub_self, if_true, Nat.not_le.mpr hn,
    if_false, zero_add, lt_irrefl, false_and, add_zero] at hbit
  rw [BitVec.getLsbD, BitVec.getLsbD]
  cases hr : r.toNat.testBit 0 <;> cases hb : b.toNat.testBit n <;> simp_all

theorem SerialInvariant.step {a b : Half} {n : Nat} {r : Lane} (h : SerialInvariant a b n r) (hn : n < 64) :
    SerialInvariant a b (n + 1) (serialStep a r) := by
  have hbit : b.toNat.testBit n = r.getLsbD 0 := (h.getLsbD_zero hn).symm
  unfold SerialInvariant at h ⊢
  rw [pow_succ', ← mul_assoc, toPoly_serialStep, add_mul, h, bitSum_succ, hbit]
  cases r.getLsbD 0
  · simp
  · simp only [if_true]
    ring

theorem SerialInvariant.iterate {a b : Half} {m n : Nat} {r : Lane} (h : SerialInvariant a b m r) (hn : m + n ≤ 64) :
    SerialInvariant a b (m + n) (serialIterate a n r) := by
  induction n generalizing m r with
  | zero => exact h
  | succ n ih =>
    rw [serialIterate, ← Nat.succ_add_eq_add_succ]
    exact ih (h.step (by omega)) (by omega)

/-! ## The laws of the product (R50) -/

theorem clmul64_two_pow (a : Half) {k : Nat} (hk : k < 64) : clmul64 a (1#64 <<< k) = a.setWidth 128 <<< k := by
  have hpow : (1#64 <<< k).toNat = 2 ^ k := by
    rw [BitVec.toNat_shiftLeft, Nat.shiftLeft_eq, BitVec.toNat_ofNat, Nat.mod_eq_of_lt (show 1 < 2 ^ 64 by decide), one_mul,
      Nat.mod_eq_of_lt (Nat.pow_lt_pow_right (by decide) hk)]
  refine eq_of_toPoly_eq ?_
  rw [toPoly_clmul64, hpow, toPoly_two_pow, toNat_setWidth_shiftLeft a hk.le, toPoly_shiftLeft]

/-- A square in characteristic two has the coefficients of its root at the even places. -/
theorem toPoly_clmul64_self (a : Half) : toPoly (clmul64 a a).toNat = expand (ZMod 2) 2 (toPoly a.toNat) := by
  rw [toPoly_clmul64, ← sq, ZMod.expand_card]

/-- A bit of a word is a coefficient of its polynomial. -/
theorem getLsbD_eq_coeff {n : Nat} (x : BitVec n) (i : Nat) : x.getLsbD i = decide ((toPoly x.toNat).coeff i = 1) := by
  rw [coeff_toPoly, BitVec.getLsbD]
  cases x.toNat.testBit i <;> decide

/-! ## The statements -/

/-- Settles O40: numbers are told by their polynomials (`toPoly_injective`), and both sides stand for the product. -/
theorem clmulIsPolynomialProduct : Obligations.ClmulIsPolynomialProduct :=
  fun a b => toPoly_injective ((toPoly_clmul64 a b).trans (toPoly_polymul ..).symm)

/-- Settles O37: the register meets `SerialInvariant` at the start and so after 64 iterations, when every bit of `b` has left it. -/
theorem serialMultiplierAgrees : Obligations.SerialMultiplierAgrees := by
  intro a b
  have hstart : SerialInvariant a b 0 (0#64 ++ b) := by
    rw [SerialInvariant, toPoly_append]
    simp [bitSum]
  have hend : SerialInvariant a b 64 (clmul64Serial a b) := hstart.iterate (n := 64) (by decide)
  rw [SerialInvariant, bitSum_of_lt b.isLt, CharTwo.add_self_eq_zero, add_zero] at hend
  refine eq_of_toPoly_eq ?_
  rw [toPoly_clmul64]
  exact mul_right_cancel₀ (pow_ne_zero 64 X_ne_zero) hend

/-- Settles O38: degrees add in a ring of polynomials without zero divisors, and the degree of a number is its highest bit
(`natDegree_toPoly`). -/
theorem clmulDegree : Obligations.ClmulDegree := by
  intro a b ha hb
  have ha : a.toNat ≠ 0 := fun h => ha (BitVec.eq_of_toNat_eq h)
  have hb : b.toNat ≠ 0 := fun h => hb (BitVec.eq_of_toNat_eq h)
  have hprod : toPoly (clmul64 a b).toNat ≠ 0 := by
    rw [toPoly_clmul64]
    exact mul_ne_zero (toPoly_ne_zero ha) (toPoly_ne_zero hb)
  have hne : (clmul64 a b).toNat ≠ 0 := by
    intro h
    rw [h, toPoly_zero] at hprod
    exact hprod rfl
  refine ⟨?_, fun h => hne (by rw [h]; rfl)⟩
  rw [← natDegree_toPoly hne, toPoly_clmul64, natDegree_mul (toPoly_ne_zero ha) (toPoly_ne_zero hb), natDegree_toPoly ha,
    natDegree_toPoly hb]

/-- Settles O39: the laws of the ring of polynomials; a square spreads the bits because it is `expand` there
(`toPoly_clmul64_self`). -/
theorem clmulLaws : Obligations.ClmulLaws := by
  refine ⟨fun a b => ?_, fun a b c => clmulUpTo_xor_left a c b 64, fun a => ?_, fun a k hk => clmul64_two_pow a hk,
    fun a i _ => ⟨?_, ?_⟩⟩
  · exact eq_of_toPoly_eq (by rw [toPoly_clmul64, toPoly_clmul64, mul_comm])
  · have h := clmul64_two_pow a (k := 0) (by decide)
    rwa [BitVec.shiftLeft_zero, BitVec.shiftLeft_zero] at h
  · rw [getLsbD_eq_coeff, getLsbD_eq_coeff, toPoly_clmul64_self, coeff_expand_mul' (by decide)]
  · rw [getLsbD_eq_coeff, toPoly_clmul64_self, coeff_expand (by decide), if_neg (by omega)]
    decide

end Sys2Proof.Machine
end

/-! The other statements, fifth part (41_polyval.md R56, R58, R60, R61, R68): the field multiplication in the polynomials modulo
`POLY`. -/

section

namespace Sys2Proof.Machine

open Polynomial

/-! ## `POLY` and the residues modulo it (R53, R60) -/

/-- `POLY` as a polynomial. The elaborator is not to unfold it, since it would evaluate the powers. -/
@[irreducible] noncomputable def polyPolynomial : (ZMod 2)[X] := X ^ 128 + X ^ 127 + X ^ 126 + X ^ 121 + 1

theorem polyPolynomial_eq_sum : polyPolynomial = X ^ 128 + X ^ 127 + X ^ 126 + X ^ 121 + 1 := by
  unfold polyPolynomial
  rfl

theorem poly_eq_bits : Config.poly = 2 ^ 128 ^^^ 2 ^ 127 ^^^ 2 ^ 126 ^^^ 2 ^ 121 ^^^ 1 := by decide

theorem toPoly_poly : toPoly Config.poly = polyPolynomial := by
  simp only [poly_eq_bits, toPoly_xor, toPoly_two_pow, toPoly_one, polyPolynomial_eq_sum]

theorem log2_poly : Config.poly.log2 = 128 := (Nat.log2_eq_iff (by decide)).mpr ⟨by decide, by decide⟩

theorem natDegree_polyPolynomial : polyPolynomial.natDegree = 128 := by
  rw [← toPoly_poly, natDegree_toPoly (by decide), log2_poly]

/-- A number as an element of GF(2)[X] modulo `POLY`. -/
noncomputable def residue (z : Nat) : AdjoinRoot polyPolynomial := AdjoinRoot.mk polyPolynomial (toPoly z)

@[simp] theorem residue_zero : residue 0 = 0 := by rw [residue, toPoly_zero, map_zero]

@[simp] theorem residue_one : residue 1 = 1 := by rw [residue, toPoly_one, map_one]

@[simp] theorem residue_xor (u v : Nat) : residue (u ^^^ v) = residue u + residue v := by
  rw [residue, toPoly_xor, map_add, residue, residue]

@[simp] theorem residue_polymul (u v : Nat) : residue (polymul u v) = residue u * residue v := by
  rw [residue, toPoly_polymul, map_mul, residue, residue]

@[simp] theorem residue_two_pow (n : Nat) : residue (2 ^ n) = AdjoinRoot.root polyPolynomial ^ n := by
  rw [residue, toPoly_two_pow, map_pow, AdjoinRoot.mk_X]

theorem residue_eq_iff (u v : Nat) : residue u = residue v ↔ polyPolynomial ∣ toPoly u - toPoly v := by
  rw [residue, residue, AdjoinRoot.mk_eq_mk]

theorem natDegree_toPoly_lt {v n : Nat} (hn : 0 < n) (h : v < 2 ^ n) : (toPoly v).natDegree < n := by
  have hle : (toPoly v).natDegree ≤ n - 1 := natDegree_le_iff_coeff_eq_zero.mpr fun i hi => by
    simp [Nat.testBit_lt_two_pow (h.trans_le (Nat.pow_le_pow_right (by decide) (show n ≤ i by omega)))]
  omega

/-- Different lanes have different residues: their difference has a degree below that of `POLY`. -/
theorem eq_of_residue_eq {x y : Lane} (h : residue x.toNat = residue y.toNat) : x = y := by
  have hdeg : (toPoly (x ^^^ y).toNat).natDegree < polyPolynomial.natDegree := by
    rw [natDegree_polyPolynomial]
    exact natDegree_toPoly_lt (by decide) (x ^^^ y).isLt
  have hdvd : polyPolynomial ∣ toPoly (x ^^^ y).toNat := by
    rw [BitVec.toNat_xor, toPoly_xor, ← CharTwo.sub_eq_add]
    exact (residue_eq_iff ..).mp h
  have hzero : toPoly (x ^^^ y).toNat = 0 := eq_zero_of_dvd_of_natDegree_lt hdvd hdeg
  refine BitVec.xor_eq_zero_iff.mp (eq_of_toPoly_eq ?_)
  rw [hzero, BitVec.toNat_zero, toPoly_zero]

/-- The polynomial of a lane written out as R21 has it. -/
theorem sum_bits_eq_toPoly (v : Lane) :
    (∑ i ∈ Finset.range 128, if v.getLsbD i then X ^ i else 0) = toPoly v.toNat := bitSum_of_lt v.isLt

/-! ## `polymod` (R60) -/

theorem residue_polymodDown (n z : Nat) : residue (polymodDown n z) = residue z := by
  induction n generalizing z with
  | zero => rfl
  | succ n ih =>
    have hmultiple : residue (Config.poly <<< n) = 0 := by
      rw [residue, toPoly_shiftLeft, toPoly_poly, map_mul, AdjoinRoot.mk_self, zero_mul]
    rw [polymodDown, ih]
    split
    · rw [residue_xor, hmultiple, add_zero]
    · rfl

/-- Adding `POLY` at a number's highest bit clears that bit and sets none above. -/
theorem xor_poly_lt {n z : Nat} (hz : z < 2 ^ (128 + n + 1)) (hbit : z.testBit (128 + n) = true) :
    z ^^^ (Config.poly <<< n) < 2 ^ (128 + n) := by
  refine Nat.lt_pow_two_of_testBit _ fun i hi => ?_
  rw [Nat.testBit_xor, Nat.testBit_shiftLeft]
  rcases Nat.eq_or_lt_of_le hi with rfl | hi
  · have htop : Config.poly.testBit 128 = true := by decide
    simp [hbit, htop]
  · have hpoly : Config.poly.testBit (i - n) = false :=
      testBit_eq_false_of_log2_lt (by rw [log2_poly]; omega)
    rw [hpoly, Nat.testBit_lt_two_pow (hz.trans_le (Nat.pow_le_pow_right (by decide) hi))]
    simp

theorem polymodDown_lt {n z : Nat} (hz : z < 2 ^ (128 + n)) : polymodDown n z < 2 ^ 128 := by
  induction n generalizing z with
  | zero => exact hz
  | succ n ih =>
    rw [polymodDown]
    split
    next hbit => exact ih (xor_poly_lt hz hbit)
    next hbit =>
      refine ih (Nat.lt_pow_two_of_testBit _ fun i hi => ?_)
      rcases Nat.eq_or_lt_of_le hi with rfl | hi
      · exact Bool.eq_false_of_not_eq_true hbit
      · exact Nat.testBit_lt_two_pow (hz.trans_le (Nat.pow_le_pow_right (by decide) hi))

/-- `polymod` keeps the residue. -/
@[simp] theorem residue_polymod (z : Nat) : residue (polymod z).toNat = residue z := by
  have hz : z < 2 ^ (128 + (z.log2 + 1 - 128)) :=
    Nat.lt_log2_self.trans_le (Nat.pow_le_pow_right (by decide) (by omega))
  rw [polymod, BitVec.toNat_ofNat, Nat.mod_eq_of_lt (polymodDown_lt hz), residue_polymodDown]

theorem polymod_eq_iff (z w : Nat) : polymod z = polymod w ↔ residue z = residue w := by
  constructor
  · intro h
    rw [← residue_polymod z, h, residue_polymod]
  · exact fun h => eq_of_residue_eq (by rw [residue_polymod, residue_polymod, h])

/-! ## The field multiplication (R56, R58, R59) -/

/-- `Z` is the polynomial product: the cross terms stand at X^64, half of them in either lane. -/
theorem toPoly_product256 (a k : Lane) : toPoly (product256 a k).toNat = toPoly a.toNat * toPoly k.toNat := by
  have hmiddle := toPoly_lane (partials a k).middle
  rw [Partials.middle, BitVec.toNat_xor, toPoly_xor] at hmiddle
  rw [product256, toPoly_append, Partials.zHi, Partials.zLo, BitVec.toNat_xor, BitVec.toNat_xor, toPoly_xor, toPoly_xor,
    toPoly_append, toPoly_append, toPoly_lane a, toPoly_lane k, BitVec.toNat_zero, toPoly_zero]
  simp only [Partials.middle, partials, toPoly_clmul64] at hmiddle ⊢
  linear_combination -X ^ 64 * hmiddle

/-- `POLY` is X^128 + `RC` X^64 + 1. -/
theorem polyPolynomial_eq : polyPolynomial = X ^ 128 + toPoly Config.reductionConstant.toNat * X ^ 64 + 1 := by
  have hbits : Config.poly = 2 ^ 128 ^^^ Config.reductionConstant.toNat <<< 64 ^^^ 1 := by decide
  rw [← toPoly_poly, hbits, toPoly_xor, toPoly_xor, toPoly_two_pow, toPoly_shiftLeft, toPoly_one]

/-- A fold round adds the low half times `POLY`, which clears it, and divides by X^64. -/
theorem toPoly_foldRound (t : Lane) :
    toPoly (foldRound t).toNat * X ^ 64 = toPoly t.toNat + toPoly (Lane.lo t).toNat * polyPolynomial := by
  rw [foldRound, foldRoundWith, BitVec.toNat_xor, toPoly_xor, toPoly_clmul64, swap64, toPoly_append, toPoly_lane t, polyPolynomial_eq]
  linear_combination -(toPoly (Lane.lo t).toNat) * (CharTwo.two_eq_zero (R := (ZMod 2)[X]))

/-- The fold round of 1 tells the constant. -/
theorem foldRoundWith_one_injective {rc rc' : Half} (h : foldRoundWith rc 1#128 = foldRoundWith rc' 1#128) : rc = rc' := by
  have hprod : clmul64 1#64 rc = clmul64 1#64 rc' := (BitVec.xor_left_inj (swap64 1#128)).mp h
  have hpoly := congrArg (fun v : Lane => toPoly v.toNat) hprod
  simp only [toPoly_clmul64] at hpoly
  exact eq_of_toPoly_eq (mul_left_cancel₀ (toPoly_ne_zero (by decide)) hpoly)

/-- `gfmul` times X^128 is the product and a multiple of `POLY`: what the two fold rounds add. -/
theorem toPoly_gfmul (a k : Lane) :
    toPoly (gfmul a k).toNat * X ^ 128 = toPoly a.toNat * toPoly k.toNat + polyPolynomial *
      (toPoly (Lane.lo (partials a k).zLo).toNat + toPoly (Lane.lo (foldRound (partials a k).zLo)).toNat * X ^ 64) := by
  have hproduct := toPoly_product256 a k
  rw [product256, toPoly_append] at hproduct
  have hfirst := toPoly_foldRound (partials a k).zLo
  have hsecond := toPoly_foldRound (foldRound (partials a k).zLo)
  rw [gfmul, BitVec.toNat_xor, toPoly_xor]
  linear_combination hproduct + hfirst + X ^ 64 * hsecond

/-! ## `gfmul` among the residues (R60) -/

/-- x^128 modulo `POLY`. -/
noncomputable def x128 : AdjoinRoot polyPolynomial := residue (2 ^ 128)

/-- x^-128 modulo `POLY`. -/
noncomputable def xInv128 : AdjoinRoot polyPolynomial := residue Config.xInv

theorem residue_gfmul_mul (a k : Lane) : residue (gfmul a k).toNat * x128 = residue a.toNat * residue k.toNat := by
  have h := congrArg (AdjoinRoot.mk polyPolynomial) (toPoly_gfmul a k)
  rwa [map_mul, map_add, map_mul, map_mul, AdjoinRoot.mk_self, zero_mul, add_zero, ← toPoly_two_pow] at h

theorem polymod_xInv : polymod (polymul (2 ^ 128) Config.xInv) = 1#128 := by decide +kernel

theorem x128_mul_xInv128 : x128 * xInv128 = 1 := by
  rw [x128, xInv128, ← residue_polymul, ← residue_polymod, polymod_xInv]
  exact residue_one

/-- `gfmul` is the product times x^-128. -/
@[simp] theorem residue_gfmul (a k : Lane) : residue (gfmul a k).toNat = residue a.toNat * residue k.toNat * xInv128 := by
  rw [← residue_gfmul_mul, mul_assoc, x128_mul_xInv128, mul_one]

/-- The identity of `gfmul` is x^128 (R61). -/
theorem residue_identityElement : residue Config.identityElement.toNat = x128 := by
  have h : polymod (2 ^ 128) = Config.identityElement := by decide
  rw [← h, residue_polymod, x128]

/-! ## The laws of `gfmul` (R61) -/

theorem gfmul_comm (a b : Lane) : gfmul a b = gfmul b a :=
  eq_of_residue_eq (by rw [residue_gfmul, residue_gfmul, mul_comm (residue a.toNat)])

theorem gfmul_assoc (a b c : Lane) : gfmul (gfmul a b) c = gfmul a (gfmul b c) :=
  eq_of_residue_eq (by simp only [residue_gfmul]; ring)

theorem gfmul_xor_left (a c b : Lane) : gfmul (a ^^^ c) b = gfmul a b ^^^ gfmul c b :=
  eq_of_residue_eq (by simp only [residue_gfmul, BitVec.toNat_xor, residue_xor]; ring)

theorem gfmul_identityElement (a : Lane) : gfmul a Config.identityElement = a :=
  eq_of_residue_eq (by rw [residue_gfmul, residue_identityElement, mul_assoc, x128_mul_xInv128, mul_one])

/-! ## The recurrence (R68) -/

/-- Absorbing `n` blocks multiplies the accumulator by the n-th power of the key, and adds what the blocks give alone. -/
theorem absorbChunks_eq (k acc : Lane) (chunks : List Lane) :
    absorbChunks k acc chunks = gfmul acc (gfpow k chunks.length) ^^^ polynomialAt k chunks := by
  induction chunks generalizing acc with
  | nil => exact ((congrArg (· ^^^ 0#128) (gfmul_identityElement acc)).trans BitVec.xor_zero).symm
  | cons x xs ih =>
    have hpow : gfmul (gfmul (acc ^^^ x) k) (gfpow k xs.length) = gfmul (acc ^^^ x) (gfpow k (xs.length + 1)) := by
      rw [gfmul_assoc, gfmul_comm k, gfpow]
    rw [absorbChunks_cons, ih, hpow, gfmul_xor_left, BitVec.xor_assoc, polynomialAt, List.length_cons]

/-! ## The statements -/

/-- Settles O43: `toPoly_product256`, and the degree of a product of lanes is at most 254. -/
theorem intermediateIsPolynomialProduct : Obligations.IntermediateIsPolynomialProduct := by
  intro a k
  refine ⟨toPoly_injective ((toPoly_product256 a k).trans (toPoly_polymul ..).symm), ?_⟩
  have ha := natDegree_toPoly_lt (by decide) a.isLt
  have hk := natDegree_toPoly_lt (by decide) k.isLt
  have hdeg : (toPoly a.toNat * toPoly k.toNat).natDegree < 255 := by
    have := natDegree_mul_le (p := toPoly a.toNat) (q := toPoly k.toNat)
    omega
  rw [getLsbD_eq_coeff, toPoly_product256, coeff_eq_zero_of_natDegree_lt hdeg]
  decide

/-- Settles O44: `toPoly_foldRound`; a constant that does the same to 1 as `RC` is `RC` (`foldRoundWith_one_injective`). -/
theorem foldRoundDividesByX64 : Obligations.FoldRoundDividesByX64 := by
  have hround (t : Lane) : (foldRound t).toNat <<< 64 = t.toNat ^^^ polymul (Lane.lo t).toNat Config.poly :=
    toPoly_injective (by rw [toPoly_shiftLeft, toPoly_foldRound, toPoly_xor, toPoly_polymul, toPoly_poly])
  refine ⟨hround, fun rc hrc => ⟨1#128, fun h => hrc (foldRoundWith_one_injective (BitVec.eq_of_toNat_eq ?_))⟩⟩
  have hshift := h.trans (hround 1#128).symm
  rw [Nat.shiftLeft_eq, Nat.shiftLeft_eq] at hshift
  exact Nat.eq_of_mul_eq_mul_right (Nat.two_pow_pos 64) hshift

/-- Settles O45: both sides have the residue of `residue_gfmul`; the inverse by evaluation. -/
theorem gfmulIsReducedProduct : Obligations.GfmulIsReducedProduct :=
  ⟨fun a k => eq_of_residue_eq (by rw [residue_gfmul, residue_polymod, residue_polymul, residue_polymul, xInv128]), polymod_xInv⟩

/-- Settles O46: the condition says that the residues of `r * x^128` and `a * k` agree (`polymod_eq_iff`), and x^128 can be
cancelled. -/
theorem gfmulIsUniqueSolution : Obligations.GfmulIsUniqueSolution := by
  intro a k r
  rw [polymod_eq_iff, residue_polymul, residue_polymul, ← residue_gfmul_mul, ← x128]
  constructor
  · intro h
    exact eq_of_residue_eq ((IsUnit.of_mul_eq_one _ x128_mul_xInv128).mul_right_cancel h)
  · rintro rfl
    rfl

/-- Settles O48: in the residues the laws are those of a commutative ring, with x^-128 as a factor. -/
theorem gfmulLaws : Obligations.GfmulLaws := by
  refine ⟨gfmul_comm, fun a b c => gfmul_xor_left a c b, gfmul_zero_left, gfmul_assoc, gfmul_identityElement, fun a => ?_, by decide⟩
  have hone : residue (1#128).toNat = 1 := residue_one
  exact eq_of_residue_eq (by rw [residue_gfmul, hone, mul_one, residue_polymod, residue_polymul, xInv128])

/-- Settles O51: `absorbChunks_eq` from a zero accumulator. -/
theorem absorbEvaluatesPolynomial : Obligations.AbsorbEvaluatesPolynomial := by
  intro k chunks
  rw [absorbChunks_eq, gfmul_zero_left, BitVec.zero_xor]

/-- Settles O47: `toPoly_gfmul` writes the multiple out. -/
theorem gfmulCongruenceInPolynomialRing : Obligations.GfmulCongruenceInPolynomialRing := by
  intro a k
  rw [← polyPolynomial_eq_sum]
  simp only [sum_bits_eq_toPoly]
  exact ⟨_, sub_eq_of_eq_add' (toPoly_gfmul a k)⟩

end Sys2Proof.Machine
end

/-! The other statements, sixth part (41_polyval.md R61): `POLY` is irreducible, by Rabin's test. -/

section

namespace Sys2Proof.Machine

open Polynomial

/-! ## Rabin's test -/

/-- Rabin's test for a degree d that is twice m, a power of two. The degree of an irreducible factor divides d by the first
condition and does not divide m by the second, so it is d itself. -/
theorem irreducible_of_rabin {f : (ZMod 2)[X]} {n m d : Nat} (hm : m = 2 ^ n) (hd : d = 2 ^ (n + 1)) (hdeg : f.natDegree = d)
    (hper : f ∣ X ^ 2 ^ d - X) (hcop : IsCoprime f (X ^ 2 ^ m - X)) : Irreducible f := by
  have hpos : 0 < f.natDegree := by rw [hdeg, hd]; exact Nat.two_pow_pos _
  have hne : f ≠ 0 := ne_zero_of_natDegree_gt hpos
  obtain ⟨q, hq, hqf⟩ := WfDvdMonoid.exists_irreducible_factor (not_isUnit_of_natDegree_pos f hpos) hne
  have hdvd : q.natDegree ∣ 2 ^ (n + 1) := by
    rw [← hd]
    exact hq.natDegree_dvd_of_dvd_X_pow_card_pow_sub_X (by rw [Nat.card_zmod]; exact hqf.trans hper)
  have hnot : ¬ q.natDegree ∣ 2 ^ n := by
    intro h
    have hqm : q ∣ X ^ 2 ^ m - X := by
      rw [← hm] at h
      have := hq.natDegree_dvd_iff_dvd_X_pow_card_pow_sub_X.mp h
      rwa [Nat.card_zmod] at this
    exact hq.not_isUnit (hcop.isUnit_of_dvd' hqf hqm)
  have hqdeg : q.natDegree = 2 ^ (n + 1) := Nat.eq_prime_pow_of_dvd_least_prime_pow Nat.prime_two hnot hdvd
  have hle : f.natDegree ≤ q.natDegree := by rw [hdeg, hd, hqdeg]
  exact (associated_of_dvd_of_natDegree_le hqf hne hle).irreducible hq

/-! ## The test of `POLY`, by evaluation -/

/-- A square modulo `POLY`. -/
def squareMod (v : Nat) : Nat := (polymod (polymul v v)).toNat

theorem residue_squareMod_iterate (n v : Nat) : residue (squareMod^[n] v) = residue v ^ 2 ^ n := by
  induction n with
  | zero => rw [Function.iterate_zero_apply, pow_zero, pow_one]
  | succ n ih => rw [Function.iterate_succ_apply', squareMod, residue_polymod, residue_polymul, ih, ← sq, ← pow_mul, pow_succ]

theorem toPoly_two : toPoly 2 = X := by
  have h := toPoly_two_pow 1
  rwa [pow_one, pow_one] at h

/-- Squaring x repeatedly gives X^(2^n) modulo `POLY`. -/
theorem dvd_of_squareMod_iterate {n v : Nat} (h : squareMod^[n] 2 = v) : polyPolynomial ∣ X ^ 2 ^ n - toPoly v := by
  have hres : residue (2 ^ 2 ^ n) = residue v := by
    rw [residue_two_pow, ← h, residue_squareMod_iterate, residue, toPoly_two, AdjoinRoot.mk_X]
  have hdvd := (residue_eq_iff _ _).mp hres
  rwa [toPoly_two_pow] at hdvd

/-- A number with an inverse modulo `POLY` is coprime to it. -/
theorem isCoprime_of_polymod {v w : Nat} (h : polymod (polymul v w) = 1#128) : IsCoprime polyPolynomial (toPoly v) := by
  have hres : residue (polymul v w) = residue 1 := by
    rw [← residue_polymod, h]
    rfl
  obtain ⟨q, hq⟩ := (residue_eq_iff _ _).mp hres
  rw [toPoly_polymul, toPoly_one] at hq
  exact ⟨-q, toPoly w, by linear_combination hq⟩

/-- The second condition of the test, from the inverse of X^(2^n) - X modulo `POLY`. Stated for every n, so that no proof unfolds
a power of X with a large exponent. -/
theorem isCoprime_of_squareMod_iterate {n v w : Nat} (h : squareMod^[n] 2 = v) (hinv : polymod (polymul (v ^^^ 2) w) = 1#128) :
    IsCoprime polyPolynomial (X ^ 2 ^ n - X) := by
  obtain ⟨q, hq⟩ := dvd_of_squareMod_iterate h
  have hcop := isCoprime_of_polymod hinv
  rw [toPoly_xor, toPoly_two, ← CharTwo.sub_eq_add] at hcop
  have hsplit : X ^ 2 ^ n - X = toPoly v - X + polyPolynomial * q := by rw [← hq]; ring
  rw [hsplit]
  exact hcop.add_mul_left_right q

/-- The first condition of the test. -/
theorem dvd_of_squareMod_period {n : Nat} (h : squareMod^[n] 2 = 2) : polyPolynomial ∣ X ^ 2 ^ n - X := by
  have hdvd := dvd_of_squareMod_iterate h
  rwa [toPoly_two] at hdvd

/-- x^(2^64) modulo `POLY`. -/
def frobenius64 : Nat := 0x53640834fdaef10f032e4649720ae54c

/-- The inverse of x^(2^64) - x modulo `POLY`. -/
def frobenius64Inverse : Nat := 0x1aee0658d3287e0474f9373996ef08bf

theorem squareMod_64 : squareMod^[64] 2 = frobenius64 := by decide +kernel

theorem squareMod_64_frobenius64 : squareMod^[64] frobenius64 = 2 := by decide +kernel

theorem polymod_frobenius64Inverse : polymod (polymul (frobenius64 ^^^ 2) frobenius64Inverse) = 1#128 := by decide +kernel

theorem iterate_trans {α : Type} {f : α → α} {m n : Nat} {a b c : α} (h : f^[n] a = b) (h' : f^[m] b = c) : f^[m + n] a = c := by
  rw [Function.iterate_add_apply, h, h']

/-- After 128 squarings x is itself again. -/
theorem squareMod_128 : squareMod^[64 + 64] 2 = 2 :=
  iterate_trans squareMod_64 squareMod_64_frobenius64

/-- `POLY` passes the test with d = 128 and m = 64. -/
theorem irreducible_polyPolynomial : Irreducible polyPolynomial :=
  irreducible_of_rabin (n := 6) (m := 64) (d := 64 + 64) rfl rfl natDegree_polyPolynomial
    (dvd_of_squareMod_period squareMod_128) (isCoprime_of_squareMod_iterate squareMod_64 polymod_frobenius64Inverse)

/-- Settles O49: modulo an irreducible polynomial there are no zero divisors, and x^-128 is not zero. -/
theorem gfmulHasNoZeroDivisors : Obligations.GfmulHasNoZeroDivisors := by
  intro a b h
  have : Fact (Irreducible polyPolynomial) := ⟨irreducible_polyPolynomial⟩
  have hprod : residue a.toNat * residue b.toNat = 0 := by
    rw [← residue_gfmul_mul, h, BitVec.toNat_zero, residue_zero, zero_mul]
  refine (mul_eq_zero.mp hprod).imp (fun ha => ?_) (fun hb => ?_)
  · exact eq_of_residue_eq (by rw [ha, BitVec.toNat_zero, residue_zero])
  · exact eq_of_residue_eq (by rw [hb, BitVec.toNat_zero, residue_zero])

end Sys2Proof.Machine
end
